-- ==== Sys2Proof/Word.lean ====
section
/-! DEFINITION. The word types of the MPS codec unit (spec/00_scope.md R7: u8, u16, u32 and the 4-bit selectors
of spec/30_encoding.md R70). Every quantity of the unit is unsigned. -/

namespace Sys2Proof

/-- A byte, `u8` (R7). -/
abbrev Byte := BitVec 8

/-- A 16-bit value, `u16` (R7): identifiers, lengths and checksums. -/
abbrev Word := BitVec 16

/-- A 32-bit value, `u32` (R7): four-byte payload values. -/
abbrev DWord := BitVec 32

/-- A 4-bit selector of MeasurementControl (R70). -/
abbrev Nibble := BitVec 4

end Sys2Proof
end

