-- ==== Sys2Proof/Config.lean ====
section
/-! DEFINITION. The configuration of the unit (spec/00_scope.md R6, spec/10_state.md R33): the record of parameters
that is fixed at build time and never part of the state, and the closed enumerations it is indexed by. Every pure function
and every operation of the unit takes the record as an argument; `Sys2Proof/Machine/Params.lean` gives the record of the
spec's defaults. -/

namespace Sys2Proof

/-- The closed set of thirteen commands, in the order of spec/30_encoding.md R66. -/
inductive Command where
  | answer | conc | ident | engData | temp | pres | relHum | absHum | status | version | sensorInfo | meas | shutdown
  deriving DecidableEq, Repr

/-- The labels of the status enumeration, in the order of spec/30_encoding.md R68. -/
inductive StatusLabel where
  | ok | crcFailed | badParam | exeFailed | noMem | unknownCmd | incompleteCommand
  | hwErrAo | hwErrVdd | hwErrVref | hwEnvXcdRange | hwEnvSnsrMalfunction | hwErrMcuFlash
  | hwSensorInitialization | hwSensorNegative | hwCondenseCond | hwSensorMalfunction
  deriving DecidableEq, Repr

/-- The labels of the gas-identification enumeration, in the order of spec/30_encoding.md R69. -/
inductive GasLabel where
  | noGas | hydrogen | hydrogenMixture | methane | lightGas | mediumGas | heavyGas
  | unknownGas | underRange | overRange
  deriving DecidableEq, Repr

/-- The type of a response field (spec/41_command_catalog.md R111). `dataL` is EngData's `bytes(L)`, whose length is
known only from the response (R106). -/
inductive FieldType where
  | u8 | u16 | u32 | f32
  | bytes (k : Nat)
  | str (k : Nat)
  | dataL
  deriving DecidableEq, Repr

/-- Which decoder interprets the payload (spec/41_command_catalog.md R105). -/
inductive Strategy where
  | generic | answer | ident | status | version | sensorInfo | engData | none
  deriving DecidableEq, Repr

/-- A command descriptor (spec/41_command_catalog.md R105). -/
structure Descriptor where
  id : Word
  name : String
  reqLen : Nat
  respLen : Nat
  fields : List (String × FieldType)
  expectsResponse : Bool
  strategy : Strategy
  deriving DecidableEq, Repr

/-- Parity of the external serial line. -/
inductive Parity where
  | none | even | odd
  deriving DecidableEq, Repr

/-- The line settings of the external transport (spec/60_exceptions.md R215). They are parameters of R6 but external
to the unit: no rule of the unit reads them. -/
structure LineSettings where
  baud : Nat
  dataBits : Nat
  parity : Parity
  stopBits : Nat
  deriving DecidableEq, Repr

/-- The configuration record of spec/00_scope.md R6, with the catalog, its strategies and the enumeration tables (R33).
The checksum's width, reflection and final XOR are fixed by the source and by spec/40_checksum_unit.md R95, and the
header lengths by R6, so they are no fields. -/
structure Config where
  crcPoly : Word
  crcSeed : Word
  txCap : Nat
  rxCap : Nat
  engDataMaxL : Nat
  catalog : Command → Descriptor
  statusCode : StatusLabel → Byte
  gasCode : GasLabel → DWord
  unitPctLel : Nibble
  unitPctVol : Nibble
  modeContinuous : Nibble
  modeStopped : Nibble
  /-- `TEXT_ENCODING`: the text that a string's bytes stand for. No rule of the unit reads it (R156): log entry 8. -/
  textEncoding : List Byte → String
  line : LineSettings
  /-- `READ_TIMEOUT` of the external transport, in a unit of the host's. No rule of the unit reads it: log entry 8. -/
  readTimeout : Nat

/-- `REQ_HDR`: the request header is 8 bytes (R6). -/
abbrev reqHdr : Nat := 8

/-- `RESP_HDR`: the response header is 6 bytes (R6). -/
abbrev respHdr : Nat := 6

/-- `UNIT_PCT_LEL`, OPEN and without a default (R6, R70): a free value, log entry 7. -/
opaque Config.openUnitPctLel : Nibble

/-- How far `UNIT_PCT_VOL` lies from `UNIT_PCT_LEL`, less one and modulo 16: a free value that says only that the two
differ (R70), log entry 7. -/
opaque Config.openUnitGap : Fin 15

/-- `MODE_CONTINUOUS`, OPEN and without a default (R6, R70): a free value, log entry 7. -/
opaque Config.openModeContinuous : Nibble

/-- How far `MODE_STOPPED` lies from `MODE_CONTINUOUS`, less one and modulo 16: a free value that says only that the
two differ (R70), log entry 7. -/
opaque Config.openModeGap : Fin 15

/-- `TEXT_ENCODING`, OPEN and without a default (R6, spec/92_eei_decisions.md D22): a free value, log entry 8. -/
opaque Config.openTextEncoding : List Byte → String

/-- `READ_TIMEOUT`, OPEN and external (R6): a free value, log entry 8. -/
opaque Config.openReadTimeout : Nat

/-- The selector that lies `gap + 1` above `base`, modulo 16: any selector but `base`. -/
def Config.otherSelector (base : Nibble) (gap : Fin 15) : Nibble := base + BitVec.ofNat 4 (gap.val + 1)

end Sys2Proof
end

