-- ==== Sys2Proof/Machine/Params.lean ====
section
/-! DEFINITION. The columns of the catalog that are no parameters (spec/41_command_catalog.md R106), and the configuration
`mps`: the record of spec/00_scope.md R6 at the defaults the spec gives. The values marked there as general knowledge
are PRESUMED (log entries 1 to 5). -/

namespace Sys2Proof

/-- Identifiers of the commands (spec/30_encoding.md R66). PRESUMED defaults, log entry 1. -/
def Machine.commandId : Command → Word
  | .answer => 0x01
  | .conc => 0x03
  | .ident => 0x04
  | .engData => 0x09
  | .temp => 0x21
  | .pres => 0x22
  | .relHum => 0x23
  | .absHum => 0x24
  | .status => 0x41
  | .version => 0x42
  | .sensorInfo => 0x43
  | .meas => 0x61
  | .shutdown => 0x62

/-- Status codes (spec/30_encoding.md R68). PRESUMED defaults, log entry 2. -/
def Machine.statusCode : StatusLabel → Byte
  | .ok => 0x00
  | .crcFailed => 0x01
  | .badParam => 0x02
  | .exeFailed => 0x03
  | .noMem => 0x04
  | .unknownCmd => 0x05
  | .incompleteCommand => 0x07
  | .hwErrAo => 0x20
  | .hwErrVdd => 0x21
  | .hwErrVref => 0x22
  | .hwEnvXcdRange => 0x23
  | .hwEnvSnsrMalfunction => 0x24
  | .hwErrMcuFlash => 0x25
  | .hwSensorInitialization => 0x26
  | .hwSensorNegative => 0x30
  | .hwCondenseCond => 0x31
  | .hwSensorMalfunction => 0x32

/-- The labels as the spec spells them (R68). -/
def Machine.statusName : StatusLabel → String
  | .ok => "OK"
  | .crcFailed => "CRC_FAILED"
  | .badParam => "BAD_PARAM"
  | .exeFailed => "EXE_FAILED"
  | .noMem => "NO_MEM"
  | .unknownCmd => "UNKNOWN_CMD"
  | .incompleteCommand => "INCOMPLETE_COMMAND"
  | .hwErrAo => "HW_ERR_AO"
  | .hwErrVdd => "HW_ERR_VDD"
  | .hwErrVref => "HW_ERR_VREF"
  | .hwEnvXcdRange => "HW_ENV_XCD_RANGE"
  | .hwEnvSnsrMalfunction => "HW_ENV_SNSR_MALFUNCTION"
  | .hwErrMcuFlash => "HW_ERR_MCU_FLASH"
  | .hwSensorInitialization => "HW_SENSOR_INITIALIZATION"
  | .hwSensorNegative => "HW_SENSOR_NEGATIVE"
  | .hwCondenseCond => "HW_CONDENSE_COND"
  | .hwSensorMalfunction => "HW_SENSOR_MALFUNCTION"

/-- Gas-identification codes (spec/30_encoding.md R69). PRESUMED defaults, log entry 3. -/
def Machine.gasCode : GasLabel → DWord
  | .noGas => 0
  | .hydrogen => 1
  | .hydrogenMixture => 2
  | .methane => 3
  | .lightGas => 4
  | .mediumGas => 5
  | .heavyGas => 6
  | .unknownGas => 253
  | .underRange => 254
  | .overRange => 255

/-- The labels as the spec spells them (R69). -/
def Machine.gasName : GasLabel → String
  | .noGas => "NO_GAS"
  | .hydrogen => "HYDROGEN"
  | .hydrogenMixture => "HYDROGEN_MIXTURE"
  | .methane => "METHANE"
  | .lightGas => "LIGHT_GAS"
  | .mediumGas => "MEDIUM_GAS"
  | .heavyGas => "HEAVY_GAS"
  | .unknownGas => "UNKNOWN_GAS"
  | .underRange => "UNDER_RANGE"
  | .overRange => "OVER_RANGE"

/-- The mnemonics (R66), which are the names of the descriptors (spec/41_command_catalog.md R106). -/
def Machine.mnemonic : Command → String
  | .answer => "ANSWER"
  | .conc => "CONC"
  | .ident => "ID"
  | .engData => "ENG_DATA"
  | .temp => "TEMP"
  | .pres => "PRES"
  | .relHum => "REL_HUM"
  | .absHum => "ABS_HUM"
  | .status => "STATUS"
  | .version => "VERSION"
  | .sensorInfo => "SENSOR_INFO"
  | .meas => "MEAS"
  | .shutdown => "SHUTDOWN"

/-- The ordered response fields (R106, spec/30_encoding.md R71). PRESUMED names, order and types, log entry 4. -/
def Machine.responseFields : Command → List (String × FieldType)
  | .answer =>
    [("CYCLE_COUNT", .u32), ("CONC", .f32), ("ID", .u32), ("TEMP", .f32), ("PRESSURE", .f32),
      ("REL_HUM", .f32), ("ABS_HUM", .f32)]
  | .conc => [("CONC", .f32)]
  | .ident => [("ID", .u32)]
  | .engData => [("LENGTH", .u32), ("DATA", .dataL)]
  | .temp => [("TEMP", .f32)]
  | .pres => [("PRESSURE", .f32)]
  | .relHum => [("REL_HUM", .f32)]
  | .absHum => [("ABS_HUM", .f32)]
  | .status => [("SENSOR_STATUS", .u8)]
  | .version => [("SW_VERSION", .bytes 4), ("HW_VERSION", .bytes 2), ("PROTOCOL_VERSION", .bytes 2)]
  | .sensorInfo => [("SERIAL_NUM", .str 32), ("SENSOR_TYPE", .u32), ("CAL_DATE", .str 16), ("MFG_DATE", .str 16)]
  | .meas => []
  | .shutdown => []

/-- Request payload lengths (R106). -/
def Machine.requestLength : Command → Nat
  | .meas => 1
  | .answer | .conc | .ident | .engData | .temp | .pres | .relHum | .absHum => 0
  | .status | .version | .sensorInfo | .shutdown => 0

/-- Response payload lengths (R106); EngData's is nominal (spec/90_conflicts.md C3). -/
def Machine.responseLength : Command → Nat
  | .answer => 28
  | .conc => 4
  | .ident => 4
  | .engData => 128
  | .temp => 4
  | .pres => 4
  | .relHum => 4
  | .absHum => 4
  | .status => 1
  | .version => 8
  | .sensorInfo => 68
  | .meas => 0
  | .shutdown => 0

/-- Which commands are answered (R106, R110). -/
def Machine.answered : Command → Bool
  | .meas | .shutdown => false
  | .answer | .conc | .ident | .engData | .temp | .pres | .relHum | .absHum => true
  | .status | .version | .sensorInfo => true

/-- Which decoder interprets a command's payload (R106). -/
def Machine.payloadStrategy : Command → Strategy
  | .answer => .answer
  | .ident => .ident
  | .engData => .engData
  | .status => .status
  | .version => .version
  | .sensorInfo => .sensorInfo
  | .conc | .temp | .pres | .relHum | .absHum => .generic
  | .meas | .shutdown => .none

/-- The command catalog (R106): one descriptor per command. -/
def Machine.descriptor (c : Command) : Descriptor where
  id := Machine.commandId c
  name := Machine.mnemonic c
  reqLen := Machine.requestLength c
  respLen := Machine.responseLength c
  fields := Machine.responseFields c
  expectsResponse := Machine.answered c
  strategy := Machine.payloadStrategy c

/-- The configuration of the spec's defaults (R6). The polynomial is the PRESUMED default of log entry 5; the parameters
that are OPEN without a default are free values, log entries 7 and 8. -/
def Machine.mps : Config where
  crcPoly := 0x1021
  crcSeed := 0xFFFF
  txCap := 9
  rxCap := 138
  engDataMaxL := 128
  catalog := Machine.descriptor
  statusCode := Machine.statusCode
  gasCode := Machine.gasCode
  unitPctLel := Config.openUnitPctLel
  unitPctVol := Config.otherSelector Config.openUnitPctLel Config.openUnitGap
  modeContinuous := Config.openModeContinuous
  modeStopped := Config.otherSelector Config.openModeContinuous Config.openModeGap
  textEncoding := Config.openTextEncoding
  line := ⟨38400, 8, .none, 1⟩
  readTimeout := Config.openReadTimeout

end Sys2Proof
end

