-- ==== Sys2Proof/Machine/State.lean ====
section
/-! DEFINITION. The state of the unit (spec/10_state.md R20), the values its fields take (R25, R27, R28), the host
operations it takes in and the events it puts out (spec/44_exchange_sequencer.md R180), and the state after reset
(R37). -/

namespace Sys2Proof.Machine

/-- `ENUM(label)` of R27: a label of one of the two closed enumerations, or `UNRECOGNISED(code)` with the raw code
(spec/30_encoding.md R74). -/
inductive EnumLabel where
  | status (l : StatusLabel)
  | gas (l : GasLabel)
  | unrecognised (code : Nat)
  deriving DecidableEq, Repr

/-- `Value` of R27. -/
inductive Value where
  | u8 (n : Byte)
  | u16 (n : Word)
  | u32 (n : DWord)
  /-- a 32-bit pattern labelled as a binary32 number and never interpreted (spec/43_command_variants.md R159) -/
  | f32 (w : DWord)
  | enum (label : EnumLabel)
  | text (s : String)
  | str (b : List Byte)
  | bytes (b : List Byte)
  deriving DecidableEq, Repr

/-- The ordered field list of a decoded response (R27). -/
abbrev Fields := List (String × Value)

/-- `Result` of R27. -/
inductive Result where
  /-- no exchange finished since reset or since the last ISSUE -/
  | none
  /-- a request-only command was encoded and handed to TX -/
  | sent
  /-- framing error: the response failed validation -/
  | absent
  | decoded (fields : Fields)
  /-- the host reported an I/O failure or timeout -/
  | transportError
  deriving DecidableEq, Repr

/-- The control state (R25). -/
inductive Phase where
  | idle | await
  deriving DecidableEq, Repr

/-- The nine sticky faults of the unit (spec/60_exceptions.md R205). Raising one is a next state of the machine in
which the field `fault` holds it (R208). -/
inductive UnitFault where
  | unknownCommand | badRequestPayload | noResponseExpected | shortBuffer | lengthMismatch
  | rxOverflow | busy | unexpectedRx | crcUnloaded
  deriving DecidableEq, Repr

/-- The operations the host can invoke (R180). -/
inductive HostOp where
  /-- `ISSUE(id, payload)` (R181) -/
  | issue (id : Word) (payload : List Byte)
  /-- `RECV(bytes)` (R184): what the transport delivered, a free input -/
  | recv (bytes : List Byte)
  /-- `IO_ERROR` (R187) -/
  | ioError
  /-- `RESET` (spec/70_reset_and_hazards.md R230) -/
  | reset
  /-- `CRC_LOAD(seed)` (spec/40_checksum_unit.md R97) -/
  | crcLoad (seed : Word)
  /-- `CRC_BYTE(b)` (R97) -/
  | crcByte (b : Byte)
  /-- `CRC_READ` (R97) -/
  | crcRead
  deriving DecidableEq, Repr

/-- What the host observes the unit put out (R180), and the value `CRC_READ` returns (R97). -/
inductive Output where
  | tx (frame : List Byte)
  | done (r : Result)
  | framingError
  | crcValue (v : Word)
  deriving DecidableEq, Repr

/-- A byte buffer: the bytes that differ from what an unlisted offset reads as, by rising offset. -/
abbrev Memory := List Host.Cell

/-- The state of the unit: the ten fields of R20, then the model's own two lists, of host operations not yet performed
(log entry 13) and of events put out (log entry 14). -/
structure State where
  /-- the CRC accumulator, or no value (R21, R37) -/
  crc : Option Word
  /-- the request frame being sent, offsets 0 to 8 (R22) -/
  txbuf : Memory
  /-- number of valid bytes of `txbuf` -/
  txlen : Nat
  /-- the response bytes received so far, offsets 0 to 137 (R23) -/
  rxbuf : Memory
  /-- number of valid bytes of `rxbuf` -/
  rxlen : Nat
  /-- the identifier given to the last ISSUE (R24) -/
  cmd : Word
  /-- whether an exchange is in progress (R25) -/
  phase : Phase
  /-- number of response bytes the current exchange must receive (R26) -/
  rxExpected : Nat
  /-- outcome of the last finished exchange (R27) -/
  result : Result
  /-- the sticky fault (R28) -/
  fault : Option UnitFault
  /-- host operations not yet performed, next one first -/
  inputs : List HostOp
  /-- events put out so far, oldest first -/
  outputs : List Output
  deriving DecidableEq, Repr

/-- The state after RESET (R37). `cmd` and the two buffers hold values the model names: log entries 10 and 11. -/
def State.reset : State where
  crc := none
  txbuf := []
  txlen := 0
  rxbuf := []
  rxlen := 0
  cmd := 0
  phase := .idle
  rxExpected := 0
  result := .none
  fault := none
  inputs := []
  outputs := []

/-- Why the machine stops. -/
inductive Fault where
  /-- An operation other than RESET in a faulted unit: it has no step (spec/60_exceptions.md R208). Raised by every
  operation through `Machine.guardFault`, and by a step of a faulted unit with no RESET pending. Safe: the
  spec gives no step. -/
  | stuck (f : UnitFault)
  /-- A byte received at an offset outside `rxbuf` (spec/20_memory.md R40, R54). Raised by `Machine.rxByte`, and only in
  states that no run reaches. Safe: the offset does not exist. -/
  | outsideBuffer
  deriving DecidableEq, Repr

/-- Why an instruction has no meaning. -/
inductive Refusal where
  /-- An instruction without a meaning; no arm of `exec` answers with it. Safe. -/
  | notModelled (mnemonic : String)
  deriving DecidableEq, Repr

/-- The answer of an operation. -/
abbrev Answer := Host.Outcome State Fault Refusal

end Sys2Proof.Machine
end

