-- ==== Sys2Proof/WellFormed.lean ====
section
/-! DEFINITION. What is well formed: a configuration (spec/41_command_catalog.md R108 and the constraints of
spec/92_eei_decisions.md on the parameters) and a host operation (spec/44_exchange_sequencer.md R180). Every term of
`Instr` is well formed, since its operand types admit exactly the legal operands. -/

namespace Sys2Proof

/-- The thirteen commands, in the order of R66. -/
def Command.all : List Command :=
  [.answer, .conc, .ident, .engData, .temp, .pres, .relHum, .absHum, .status, .version, .sensorInfo, .meas, .shutdown]

/-- The seventeen status labels, in the order of R68. -/
def StatusLabel.all : List StatusLabel :=
  [.ok, .crcFailed, .badParam, .exeFailed, .noMem, .unknownCmd, .incompleteCommand] ++
  [.hwErrAo, .hwErrVdd, .hwErrVref, .hwEnvXcdRange, .hwEnvSnsrMalfunction, .hwErrMcuFlash,
    .hwSensorInitialization, .hwSensorNegative, .hwCondenseCond, .hwSensorMalfunction]

/-- The ten gas labels, in the order of R69. -/
def GasLabel.all : List GasLabel :=
  [.noGas, .hydrogen, .hydrogenMixture, .methane, .lightGas, .mediumGas, .heavyGas, .unknownGas, .underRange, .overRange]

/-- The width of a field type in bytes (R111); EngData's `bytes(L)` is not one of R111's types and counts no byte. -/
def FieldType.width : FieldType → Nat
  | .u8 => 1
  | .u16 => 2
  | .u32 => 4
  | .f32 => 4
  | .bytes k => k
  | .str k => k
  | .dataL => 0

/-- Whether a field type has a width of its own (R111): all but EngData's `bytes(L)`. -/
def FieldType.fixed : FieldType → Bool
  | .dataL => false
  | .u8 | .u16 | .u32 | .f32 | .bytes _ | .str _ => true

/-- The sum of the widths of a descriptor's fixed fields. -/
def Descriptor.fixedBytes (d : Descriptor) : Nat := ((d.fields.filter fun f => f.2.fixed).map fun f => f.2.width).sum

/-- R108 condition 1: identifiers pairwise distinct. -/
def Config.idsDistinct (k : Config) : Bool := decide ((Command.all.map fun c => (k.catalog c).id).Nodup)

/-- R108 condition 2: every identifier below 256, a request-only command's too (log entry 31). -/
def Config.idsFitEcho (k : Config) : Bool := Command.all.all fun c => (k.catalog c).id.toNat < 256

/-- R108 condition 3: names distinct; field names distinct within a descriptor and other than the two header names. -/
def Config.namesDistinct (k : Config) : Bool :=
  decide ((Command.all.map fun c => (k.catalog c).name).Nodup) &&
  Command.all.all fun c => decide ("CommandId" :: "Status" :: (k.catalog c).fields.map Prod.fst).Nodup

/-- R108 condition 4: in every descriptor but ENG_DATA's each field has a width and the widths sum to the response length;
in ENG_DATA's the fixed part sums to 4. -/
def Config.widthsSum (k : Config) : Bool :=
  Command.all.all fun c =>
    if c = .engData then (k.catalog c).fixedBytes = 4
    else ((k.catalog c).fields.all fun f => f.2.fixed) && (k.catalog c).fixedBytes = (k.catalog c).respLen

/-- R108 condition 5: a request-only command has no response shape. -/
def Config.requestOnlyEmpty (k : Config) : Bool :=
  Command.all.all fun c =>
    (k.catalog c).expectsResponse ||
    ((k.catalog c).respLen == 0 && (k.catalog c).fields.isEmpty && (k.catalog c).strategy == .none)

/-- R108 condition 6: every frame fits its buffer. That `rxCap` may exceed `10 + engDataMaxL`, to which the table of
spec/92_eei_decisions.md sets it equal, is DESIGN CHOICE, log entry 31. That the nominal
response length of ENG_DATA must fit `rxCap` too, beside its own bound, is DESIGN CHOICE, log entry 35. -/
def Config.framesFit (k : Config) : Bool :=
  (Command.all.all fun c => reqHdr + (k.catalog c).reqLen ≤ k.txCap && respHdr + (k.catalog c).respLen ≤ k.rxCap) &&
  respHdr + 4 + k.engDataMaxL ≤ k.rxCap

/-- spec/30_encoding.md R68: status codes pairwise distinct. -/
def Config.statusCodesDistinct (k : Config) : Bool := decide ((StatusLabel.all.map k.statusCode).Nodup)

/-- spec/92_eei_decisions.md D19: gas codes pairwise distinct. -/
def Config.gasCodesDistinct (k : Config) : Bool := decide ((GasLabel.all.map k.gasCode).Nodup)

/-- spec/92_eei_decisions.md, OPEN parameters: the polynomial has bit 0 set. -/
def Config.polyOdd (k : Config) : Bool := k.crcPoly.getLsbD 0

/-- A catalog is well formed iff all six conditions of R108 hold. -/
def Config.catalogWf (k : Config) : Bool :=
  k.idsDistinct && k.idsFitEcho && k.namesDistinct && k.widthsSum && k.requestOnlyEmpty && k.framesFit

/-- R106: the columns of the catalog that R6 makes no parameters hold the table's values: name, payload lengths, whether a
response is expected, strategy. Identifiers and fields are parameters. -/
def Config.columnsGiven (k : Config) : Bool :=
  Command.all.all fun c =>
    k.catalog c == { Machine.descriptor c with id := (k.catalog c).id, fields := (k.catalog c).fields }

/-- A configuration a unit may be built from: a well-formed catalog (R108), with the given columns, distinct codes and a
polynomial with bit 0 set. The tests beyond R108 are DESIGN CHOICE, log entry 30; where spec/92_eei_decisions.md constrains
a parameter otherwise than R108, the tests are R108's, log entry 31. -/
def Config.wf (k : Config) : Bool :=
  k.catalogWf && k.columnsGiven && k.statusCodesDistinct && k.gasCodesDistinct && k.polyOdd

/-- spec/30_encoding.md R70: the two unit selectors differ and the two mode selectors differ. It stands apart from `wf`
because the selectors are free values. -/
abbrev Config.selectorsDistinct (k : Config) : Prop :=
  k.unitPctLel ≠ k.unitPctVol ∧ k.modeContinuous ≠ k.modeStopped

/-- R180: RECV carries one or more bytes. Every other operation is well formed. -/
def Machine.HostOp.wf : Machine.HostOp → Bool
  | .issue _ _ => true
  | .recv bytes => !bytes.isEmpty
  | .ioError => true
  | .reset => true
  | .crcLoad _ => true
  | .crcByte _ => true
  | .crcRead => true

end Sys2Proof
end

