-- ==== Sys2Proof/Machine/Catalog.lean ====
section
/-! DEFINITION. Lookup in the command catalog (spec/41_command_catalog.md R107) and the labels of the enumerations
(spec/42_frame_codec.md R122, spec/43_command_variants.md R155). -/

namespace Sys2Proof.Machine

/-- The command an identifier names, comparing all 16 bits (R107). -/
def commandOf (k : Config) (id : Word) : Option Command := Command.all.find? fun c => (k.catalog c).id == id

/-- `lookup` (R107). -/
def lookup (k : Config) (id : Word) : Except UnitFault Descriptor :=
  match commandOf k id with
  | some c => .ok (k.catalog c)
  | none => .error .unknownCommand

/-- `status_label` (R122): the label of a status code, or `UNRECOGNISED(code)` (spec/30_encoding.md R74). -/
def statusLabel (k : Config) (code : Byte) : EnumLabel :=
  match StatusLabel.all.find? fun l => k.statusCode l == code with
  | some l => .status l
  | none => .unrecognised code.toNat

/-- `gas_label` (R155): all 32 bits are compared. -/
def gasLabel (k : Config) (v : DWord) : EnumLabel :=
  match GasLabel.all.find? fun l => k.gasCode l == v with
  | some l => .gas l
  | none => .unrecognised v.toNat

end Sys2Proof.Machine
end

