-- ==== Sys2Proof/Machine/Bytes.lean ====
section
/-! DEFINITION. Byte sequences and byte order (spec/00_scope.md R7, R8; spec/20_memory.md R41 to R45): every multi-byte
integer is little-endian and unsigned, and no access has an alignment requirement. -/

namespace Sys2Proof.Machine

/-- The less significant byte of a 16-bit value, sent first (R41). -/
def loByte (v : Word) : Byte := v.setWidth 8

/-- The more significant byte of a 16-bit value, sent second (R41). -/
def hiByte (v : Word) : Byte := (v >>> 8).setWidth 8

/-- The unsigned value of bytes in little-endian order (R41). -/
def leNat : List Byte → Nat
  | [] => 0
  | b :: bs => b.toNat + 256 * leNat bs

/-- `B[off..off+n)` (R8), defined where it lies within the sequence. -/
def subseq (buf : List Byte) (off n : Nat) : Option (List Byte) :=
  if off + n ≤ buf.length then some ((buf.drop off).take n) else none

/-- `MemRead(buf, off, n)` (R42): defined when `off + n ≤ len(buf)`. A read beyond the length has no meaning (R54). -/
def memRead (buf : List Byte) (off n : Nat) : Option Nat := (subseq buf off n).map leNat

/-- `MemRead(buf, off, 1)`. -/
def memRead8 (buf : List Byte) (off : Nat) : Option Byte := (memRead buf off 1).map (BitVec.ofNat 8)

/-- `MemRead(buf, off, 2)`. -/
def memRead16 (buf : List Byte) (off : Nat) : Option Word := (memRead buf off 2).map (BitVec.ofNat 16)

/-- `MemRead(buf, off, 4)`. -/
def memRead32 (buf : List Byte) (off : Nat) : Option DWord := (memRead buf off 4).map (BitVec.ofNat 32)

/-- `MemWrite(buf, off, 1, v)` (R43): `B[off := v]`. R43 gives `off` no domain: a byte beyond the length is dropped, DESIGN
CHOICE, log entry 34. -/
def memWrite8 (buf : List Byte) (off : Nat) (v : Byte) : List Byte := buf.set off v

/-- `MemWrite(buf, off, 2, v)` (R43): low byte first. A byte beyond the length is dropped (log entry 34). -/
def memWrite16 (buf : List Byte) (off : Nat) (v : Word) : List Byte :=
  memWrite8 (memWrite8 buf off (loByte v)) (off + 1) (hiByte v)

/-- `strip_nul` (spec/43_command_variants.md R156): trailing `0x00` bytes removed, interior ones kept. -/
def stripNul (b : List Byte) : List Byte := (b.reverse.dropWhile fun x => x == 0).reverse

/-- `dec` of R157: the decimal numeral of a byte, without leading zeros. -/
def dec (x : Byte) : String := Nat.repr x.toNat

/-- `dotted` (R157): the bytes in decimal, joined by full stops. -/
def dotted (b : List Byte) : String := String.intercalate "." (b.map dec)

end Sys2Proof.Machine
end

