-- ==== Sys2Proof/Machine/Crc.lean ====
section
/-! DEFINITION. The checksum function (spec/40_checksum_unit.md R90 to R95): width 16, most significant bit first, no
reflection, no final XOR, for the polynomial of the configuration. -/

namespace Sys2Proof.Machine

/-- One bit of the recurrence of R92 and R93: shift left and fold the polynomial in when bit 15 was set. -/
def crcShift (k : Config) (r : Word) : Word := if r.msb then (r <<< 1) ^^^ k.crcPoly else r <<< 1

/-- `n` bits of the recurrence. -/
def crcShifts (k : Config) : Nat → Word → Word
  | 0, r => r
  | n + 1, r => crcShifts k n (crcShift k r)

/-- The table `T` (R92), by its recurrence. -/
def crcTable (k : Config) (i : Byte) : Word := crcShifts k 8 (i.setWidth 16 <<< 8)

/-- `crc_step` (R91), the table form. -/
def crcStep (k : Config) (c : Word) (b : Byte) : Word := (c <<< 8) ^^^ crcTable k (hiByte c ^^^ b)

/-- `crc_step_bits` (R93), the bit-serial form. -/
def crcStepBits (k : Config) (c : Word) (b : Byte) : Word := crcShifts k 8 (c ^^^ (b.setWidth 16 <<< 8))

/-- `crc16` (R90): the bytes folded in wire order from the seed, and the register returned as it is (R95). -/
def crc16 (k : Config) (seed : Word) (bytes : List Byte) : Word := bytes.foldl (crcStep k) seed

end Sys2Proof.Machine
end

