-- ==== Sys2Proof/Machine/Flags.lean ====
section
/-! DEFINITION. The three Boolean values that steer decoding (spec/10_state.md R31). The unit stores none of them: each
is computed and consumed inside one operation. -/

namespace Sys2Proof.Machine

/-- `status_ok` (spec/42_frame_codec.md R122): the only use of a status code in control flow. -/
def statusOk (k : Config) (code : Byte) : Bool := code == k.statusCode .ok

/-- The echo comparison (R118): the echo byte zero-extended against all 16 bits of the identifier sent. -/
def echoOk (echo : Byte) (expected : Word) : Bool := echo.setWidth 16 == expected

/-- The checksum recomputed over every byte received, the checksum field taken as zero (R119). -/
def responseChecksum (k : Config) (raw : List Byte) : Word := crc16 k k.crcSeed (memWrite16 raw 4 0)

/-- `validate_response` (R117), the transient `valid`; fewer than six bytes fault (R120). -/
def validateResponse (k : Config) (raw : List Byte) (expected : Word) : Except UnitFault Bool :=
  match memRead8 raw 0, memRead16 raw 4 with
  | some echo, some ck => .ok (echoOk echo expected && responseChecksum k raw == ck)
  | _, _ => .error .shortBuffer

/-- `expects_response` of an identifier (spec/41_command_catalog.md R110). -/
def expectsResponse (k : Config) (id : Word) : Except UnitFault Bool :=
  match lookup k id with
  | .ok d => .ok d.expectsResponse
  | .error f => .error f

end Sys2Proof.Machine
end

