-- ==== Sys2Proof/Machine/Frame.lean ====
section
/-! DEFINITION. The frame codec (spec/42_frame_codec.md): building a request and decoding a validated response. All are
pure functions of their arguments. -/

namespace Sys2Proof.Machine

/-- The request with its checksum field zero, `F0` of R115: identifier, payload length, reserved zero (R64), zero
checksum, payload; little-endian. -/
def requestImage (id : Word) (payload : List Byte) : List Byte :=
  [loByte id, hiByte id, loByte (BitVec.ofNat 16 payload.length), hiByte (BitVec.ofNat 16 payload.length),
    0, 0, 0, 0] ++ payload

/-- `encode_request` (R115). It has no value for a payload whose length does not fit the `length` field (R116). -/
def encodeRequest (k : Config) (id : Word) (payload : List Byte) : Option (List Byte) :=
  if payload.length ≤ 65535 then
    some (memWrite16 (requestImage id payload) 6 (crc16 k k.crcSeed (requestImage id payload)))
  else none

/-- The two fields every decoded response begins with (spec/10_state.md R27). -/
def headerFields (k : Config) (d : Descriptor) (status : Byte) : Fields :=
  [("CommandId", .text d.name), ("Status", .enum (statusLabel k status))]

/-- `decode_status_only` (R121): the echo and the status, whatever follows the header. -/
def decodeStatusOnly (k : Config) (raw : List Byte) : Except UnitFault Result :=
  match memRead8 raw 0, memRead8 raw 1, subseq raw 0 respHdr with
  | some echo, some status, some _ =>
    match lookup k (echo.setWidth 16) with
    | .ok d => .ok (.decoded (headerFields k d status))
    | .error f => .error f
  | _, _, _ => .error .shortBuffer

/-- The generic decode of one field (spec/41_command_catalog.md R111): a read and a label, never a conversion (R124).
EngData's `bytes(L)` has no generic decode. -/
def genericValue (ty : FieldType) (raw : List Byte) (o : Nat) : Option Value :=
  match ty with
  | .u8 => (memRead8 raw o).map .u8
  | .u16 => (memRead16 raw o).map .u16
  | .u32 => (memRead32 raw o).map .u32
  | .f32 => (memRead32 raw o).map .f32
  | .bytes n => (subseq raw o n).map .bytes
  | .str n => (subseq raw o n).map fun b => .str (stripNul b)
  | .dataL => none

/-- The loop of `decode_fields` (R123): values in descriptor order from offset `o`, zipped with the field names. -/
def fieldValues (raw : List Byte) : Nat → List (String × FieldType) → Option Fields
  | _, [] => some []
  | o, (name, ty) :: rest =>
    match genericValue ty raw o, fieldValues raw (o + ty.width) rest with
    | some v, some vs => some ((name, v) :: vs)
    | _, _ => none

/-- What every decoder does first: a direct call on fewer bytes than the response header raises ShortBuffer (R120). -/
def needHeader {α : Type} (raw : List Byte) (r : Except UnitFault α) : Except UnitFault α :=
  if raw.length < respHdr then .error .shortBuffer else r

/-- `decode_fields` (R123), with the header test of R120 and then the exact length check of R125. That a descriptor R123
does not admit answers LengthMismatch too is DESIGN CHOICE, log entry 32. -/
def decodeFields (k : Config) (raw : List Byte) (d : Descriptor) : Except UnitFault Fields :=
  needHeader raw <|
    if raw.length = respHdr + d.respLen then
      match memRead8 raw 1, fieldValues raw respHdr d.fields with
      | some status, some vs => .ok (headerFields k d status ++ vs)
      | _, _ => .error .lengthMismatch
    else .error .lengthMismatch

/-- `expected_response_bytes` (R126): 0 for a request-only command, 10 for the first stage of EngData. -/
def expectedResponseBytes (k : Config) (id : Word) : Except UnitFault Nat :=
  match lookup k id with
  | .ok d =>
    if d.expectsResponse then .ok (if d.strategy = .engData then 10 else respHdr + d.respLen) else .ok 0
  | .error f => .error f

end Sys2Proof.Machine
end

