-- ==== Sys2Proof/Syntax.lean ====
section
/-! DEFINITION. The instructions: one constructor per row of spec/opcode_table.json, that is per command of
spec/30_encoding.md R66. An instruction is an ISSUE of its command (spec/44_exchange_sequencer.md R181). -/

namespace Sys2Proof

/-- The thirteen commands with their operands. A command has at most one operand byte (R67): only MEAS has one, made
of two 4-bit selectors (spec/43_command_variants.md R153). The operand types admit exactly the legal operands, so every
term is well formed. -/
inductive Instr where
  /-- `ANSWER` (R142). -/
  | answer
  /-- `CONC` (R143). -/
  | conc
  /-- `ID` (R144). -/
  | ident
  /-- `ENG_DATA` (R145). -/
  | engData
  /-- `TEMP` (R146). -/
  | temp
  /-- `PRES` (R147). -/
  | pres
  /-- `REL_HUM` (R148). -/
  | relHum
  /-- `ABS_HUM` (R149). -/
  | absHum
  /-- `STATUS` (R150). -/
  | status
  /-- `VERSION` (R151). -/
  | version
  /-- `SENSOR_INFO` (R152). -/
  | sensorInfo
  /-- `MEAS` (R153): concentration-unit selector and mode selector. -/
  | meas (unit mode : Nibble)
  /-- `SHUTDOWN` (R154). -/
  | shutdown
  deriving DecidableEq, Repr

end Sys2Proof
end

