-- ==== Sys2Proof/Machine/Operands.lean ====
section
/-! DEFINITION. Operand assembly (spec/30_encoding.md R67, R70): the one operand byte of MeasurementControl, and the
command and request payload an instruction stands for. -/

namespace Sys2Proof.Machine

/-- `p = (unit << 4) | mode` (R70). -/
def measByte (unit mode : Nibble) : Byte := (unit.setWidth 8 <<< 4) ||| mode.setWidth 8

/-- `p[7:4]`, the unit selector (R70). -/
def measUnit (p : Byte) : Nibble := (p >>> 4).setWidth 4

/-- `p[3:0]`, the mode selector (R70). -/
def measMode (p : Byte) : Nibble := p.setWidth 4

/-- The command of an instruction. -/
def instrCommand : Instr → Command
  | .answer => .answer
  | .conc => .conc
  | .ident => .ident
  | .engData => .engData
  | .temp => .temp
  | .pres => .pres
  | .relHum => .relHum
  | .absHum => .absHum
  | .status => .status
  | .version => .version
  | .sensorInfo => .sensorInfo
  | .meas _ _ => .meas
  | .shutdown => .shutdown

/-- The request payload of an instruction: empty for twelve commands (R67). -/
def instrPayload : Instr → List Byte
  | .answer => []
  | .conc => []
  | .ident => []
  | .engData => []
  | .temp => []
  | .pres => []
  | .relHum => []
  | .absHum => []
  | .status => []
  | .version => []
  | .sensorInfo => []
  | .meas unit mode => [measByte unit mode]
  | .shutdown => []

end Sys2Proof.Machine
end

