-- ==== Sys2Proof/Decode.lean ====
section
/-! DEFINITION. Decoding a request frame to an instruction and encoding an instruction to its request frame
(spec/30_encoding.md R61, R67, R78), for any configuration: the identifiers are parameters (R66). A row of
spec/opcode_table.json is matched on the 48 bits of header bytes 0 to 5; bytes 6 and 7, the checksum, are a function of the
rest and are not looked at (log entry 21); the payload follows. -/

namespace Sys2Proof

open Sys2Proof.Machine

/-- Why a byte sequence is no request of the unit. -/
inductive DecodeError where
  /-- fewer bytes than the header, or than the row's payload -/
  | truncated
  /-- the reserved field is not zero (R64) -/
  | reservedNotZero
  /-- the identifier names no command (R73) -/
  | unknownCommand
  /-- the length field is not the command's request payload length (R63) -/
  | badLength
  deriving DecidableEq, Repr

/-- A command's row of the opcode table, its `match` column: identifier, request payload length and zero as one
little-endian number (R78). At the default identifiers it is the column of spec/opcode_table.json
(`opcodeMatch_default`). -/
def opcodeMatch (k : Config) (c : Command) : BitVec 48 :=
  (0 : BitVec 16) ++ BitVec.ofNat 16 (k.catalog c).reqLen ++ (k.catalog c).id

/-- The `mask` column of spec/opcode_table.json, the same in every row (R78). -/
def opcodeMask : BitVec 48 := 0xFFFFFFFFFFFF

/-- Header bytes 0 to 5 as one little-endian number (R78). -/
def headerBits (bytes : List Byte) : BitVec 48 := BitVec.ofNat 48 (leNat (bytes.take 6))

/-- The row of the table whose match the header meets (R78). -/
def matchRow (k : Config) (h : BitVec 48) : Option Command :=
  Command.all.find? fun c => h &&& opcodeMask == opcodeMatch k c

/-- Why a header meets no row. -/
def rejectReason (k : Config) (bytes : List Byte) : DecodeError :=
  if memRead16 bytes 4 ≠ some 0 then .reservedNotZero
  else if Command.all.any fun c => memRead16 bytes 0 == some (k.catalog c).id then .badLength
  else .unknownCommand

/-- Take a row's operands from the bytes after the header: only MEAS has one (R67). -/
def takeOperands : Command → List Byte → Except DecodeError (Instr × List Byte)
  | .answer, rest => .ok (.answer, rest)
  | .conc, rest => .ok (.conc, rest)
  | .ident, rest => .ok (.ident, rest)
  | .engData, rest => .ok (.engData, rest)
  | .temp, rest => .ok (.temp, rest)
  | .pres, rest => .ok (.pres, rest)
  | .relHum, rest => .ok (.relHum, rest)
  | .absHum, rest => .ok (.absHum, rest)
  | .status, rest => .ok (.status, rest)
  | .version, rest => .ok (.version, rest)
  | .sensorInfo, rest => .ok (.sensorInfo, rest)
  | .meas, p :: rest => .ok (.meas (measUnit p) (measMode p), rest)
  | .meas, [] => .error .truncated
  | .shutdown, rest => .ok (.shutdown, rest)

/-- Decode the request at the front of a byte sequence; the bytes after it are given back. -/
def decodeFrame (k : Config) (bytes : List Byte) : Except DecodeError (Instr × List Byte) :=
  if bytes.length < reqHdr then .error .truncated
  else
    match matchRow k (headerBits bytes) with
    | some c => takeOperands c (bytes.drop reqHdr)
    | none => .error (rejectReason k bytes)

/-- The `n` bytes of a number in little-endian order. -/
def leBytes : Nat → Nat → List Byte
  | 0, _ => []
  | n + 1, v => BitVec.ofNat 8 v :: leBytes n (v / 256)

/-- Header bytes 0 to 5 of an instruction's request (R61, R67): identifier, payload length, zero. No instruction's payload
is longer than one byte. -/
def requestHead (k : Config) (i : Instr) : List Byte :=
  let id := (k.catalog (instrCommand i)).id
  [loByte id, hiByte id, BitVec.ofNat 8 (instrPayload i).length, 0, 0, 0]

/-- The checksum of an instruction's request, over the frame with the checksum bytes zero (R65). -/
def requestChecksum (k : Config) (i : Instr) : Word := crc16 k k.crcSeed (requestHead k i ++ [0, 0] ++ instrPayload i)

/-- The request frame of an instruction (R67): the row's six fixed bytes, the checksum, the payload. -/
def encodeInstr (k : Config) (i : Instr) : List Byte :=
  requestHead k i ++ [loByte (requestChecksum k i), hiByte (requestChecksum k i)] ++ instrPayload i

/-- The instruction an `ISSUE(id, payload)` stands for, or the fault ISSUE raises for its operands, in the order of
spec/60_exceptions.md R207: first the identifier, then the payload length. -/
def decodeRequest (k : Config) (id : Word) (payload : List Byte) : Except UnitFault Instr :=
  match decodeFrame k (requestImage id payload) with
  | .ok (i, []) => .ok i
  | _ => .error (if (commandOf k id).isSome then .badRequestPayload else .unknownCommand)

/-- The bytes of a table word: the first `nbits` bits of `w`, least significant byte first, then zeros up to the
longest request (nine bytes). -/
def tableImage (nbits w : Nat) : List Byte := leBytes (max 9 ((nbits + 7) / 8)) (w % 2 ^ nbits)

/-- The instruction the decoder reads from a table word. The table is that of the default identifiers, so the
configuration is `mps`. -/
def decodeTableWord (nbits w : Nat) : Option Instr :=
  match decodeFrame mps (tableImage nbits w) with
  | .ok (i, _) => some i
  | .error _ => none

/-- The ISSUE that a request image stands for: its identifier, and as many payload bytes as its length field says,
bytes past the image read as zero. An image whose reserved field is not zero stands for no ISSUE, since no operation
takes that field as an operand (R64). -/
def issueOfImage (bytes : List Byte) : Option HostOp :=
  match memRead16 bytes 0, memRead16 bytes 2, memRead16 bytes 4 with
  | some id, some len, some reserved =>
    if reserved = 0 then
      some (.issue id ((List.range len.toNat).map fun j => (bytes[reqHdr + j]?).getD 0))
    else none
  | _, _, _ => none

end Sys2Proof
end

