-- ==== Sys2Proof/Machine/Ops.lean ====
section
/-! DEFINITION. The operations everything else is made of: byte buffers (spec/20_memory.md R40, R47), the named updates
of the state, taking a fault (spec/60_exceptions.md R208) and leaving it by RESET (spec/70_reset_and_hazards.md R230). -/

namespace Sys2Proof.Machine

/-- What an offset of a buffer reads as when nothing is listed there. DESIGN CHOICE, log entry 11: no rule of the unit
reads such a byte. -/
def Memory.unlisted : Byte := 0

/-- The byte at an offset. -/
def Memory.read : Memory → Nat → Byte
  | [], _ => Memory.unlisted
  | (x, v) :: m, a => if a = x then v else Memory.read m a

/-- Write a byte, keeping the canonical form. -/
def Memory.write : Memory → Nat → Byte → Memory
  | [], a, b => if b = Memory.unlisted then [] else [(a, b)]
  | (x, v) :: m, a, b =>
    if a < x then (if b = Memory.unlisted then (x, v) :: m else (a, b) :: (x, v) :: m)
    else if a = x then (if b = Memory.unlisted then m else (a, b) :: m)
    else (x, v) :: Memory.write m a b

/-- Write a byte sequence from an offset on. -/
def Memory.writeBytes : Memory → Nat → List Byte → Memory
  | m, _, [] => m
  | m, a, b :: bs => Memory.writeBytes (Memory.write m a b) (a + 1) bs

/-- The bytes at offsets `a` to `a + n - 1`. -/
def Memory.readBytes (m : Memory) (a n : Nat) : List Byte := (List.range n).map fun j => Memory.read m (a + j)

/-- The canonical form from an offset on: offsets strictly rising, no entry equal to what an unlisted offset reads as. -/
def Memory.wfFrom : Nat → Memory → Bool
  | _, [] => true
  | lo, (x, v) :: m => decide (lo ≤ x) && decide (v ≠ Memory.unlisted) && Memory.wfFrom (x + 1) m

/-- The canonical form of a buffer. -/
def Memory.wf (m : Memory) : Bool := Memory.wfFrom 0 m

/-- Every listed offset lies below the capacity (R40). -/
def Memory.within (cap : Nat) (m : Memory) : Bool := m.all fun c => decide (c.1 < cap)

/-- The request frame in `txbuf[0..txlen)`, what the TX byte stream carries (R47). -/
def sentFrame (s : State) : List Byte := Memory.readBytes s.txbuf 0 s.txlen

/-- The bytes received so far, `rxbuf[0..rxlen)` (R40). -/
def received (s : State) : List Byte := Memory.readBytes s.rxbuf 0 s.rxlen

/-- Put events out, in order. -/
def emit (es : List Output) (s : State) : State := { s with outputs := s.outputs ++ es }

/-- Replace the host operations not yet performed. -/
def setInputs (ops : List HostOp) (s : State) : State := { s with inputs := ops }

/-- Write the checksum register (spec/40_checksum_unit.md R97). -/
def setCrc (v : Word) (s : State) : State := { s with crc := some v }

/-- Load the transmit buffer with the frame of a command and empty the receive count (spec/44_exchange_sequencer.md
R181). -/
def loadRequest (id : Word) (frame : List Byte) (s : State) : State :=
  { s with txbuf := Memory.writeBytes s.txbuf 0 frame, txlen := frame.length, cmd := id, rxlen := 0 }

/-- Open an exchange that awaits `n` bytes (R181). -/
def openExchange (n : Nat) (s : State) : State := { s with rxExpected := n, result := .none, phase := .await }

/-- End the exchange, if one is open, with a result (R183, R186, R187). -/
def settle (r : Result) (s : State) : State := { s with rxExpected := 0, result := r, phase := .idle }

/-- Store a received byte at `rxbuf[rxlen]` and count it (R184). -/
def pushRx (b : Byte) (s : State) : State :=
  { s with rxbuf := Memory.write s.rxbuf s.rxlen b, rxlen := s.rxlen + 1 }

/-- Change the number of bytes awaited (R185). -/
def setExpected (n : Nat) (s : State) : State := { s with rxExpected := n }

/-- Discard the bytes received (R187). -/
def dropRx (s : State) : State := { s with rxlen := 0 }

/-- `raise Fault(X)` (R208): the fault is kept if there is none yet, and nothing else changes. -/
def raiseFault (f : UnitFault) (s : State) : State := { s with fault := s.fault.or (some f) }

/-- `RESET` (spec/70_reset_and_hazards.md R230), the only way out of a fault (spec/60_exceptions.md R209): the unit's
fields take the values of State.reset. It emits nothing; the host's pending operations and the record of events are not
the unit's and stay. -/
def resetUnit (s : State) : State := { State.reset with inputs := s.inputs, outputs := s.outputs }

/-- An operation of a faulted unit has no step (R208). -/
def guardFault (s : State) (a : Answer) : Answer :=
  match s.fault with
  | some f => .fault (.stuck f)
  | none => a

/-- An operation that `Busy` forbids while an exchange is open (spec/44_exchange_sequencer.md R188,
spec/40_checksum_unit.md R97). -/
def guardIdle (s : State) (a : Answer) : Answer :=
  guardFault s (match s.phase with
    | .idle => a
    | .await => .next (raiseFault .busy s))

end Sys2Proof.Machine
end

