-- ==== Sys2Proof/Machine/CrcRegister.lean ====
section
/-! DEFINITION. The register-level operations of the checksum unit (spec/40_checksum_unit.md R97), in IDLE only. -/

namespace Sys2Proof.Machine

/-- `CRC_LOAD(seed)`. -/
def crcLoad (seed : Word) (s : State) : Answer := guardIdle s (.next (setCrc seed s))

/-- `CRC_BYTE(b)`: folds the byte in, or faults where the register holds no value. -/
def crcByte (k : Config) (b : Byte) (s : State) : Answer :=
  guardIdle s (match s.crc with
    | some c => .next (setCrc (crcStep k c b) s)
    | none => .next (raiseFault .crcUnloaded s))

/-- `CRC_READ`: the value returned is put out as an event (log entry 14). -/
def crcRead (s : State) : Answer :=
  guardIdle s (match s.crc with
    | some c => .next (emit [.crcValue c] s)
    | none => .next (raiseFault .crcUnloaded s))

end Sys2Proof.Machine
end

