-- ==== Sys2Proof/Machine/Variants.lean ====
section
/-! DEFINITION. The command variants (spec/43_command_variants.md): `encode`, the payload decoders of the thirteen
commands, `decode` and `cycle_update`. All are pure functions; `decode` answers a result or a fault and writes no
state. -/

namespace Sys2Proof.Machine

/-- `encode` (R140): a payload of the wrong length faults (spec/42_frame_codec.md R116). -/
def encode (k : Config) (d : Descriptor) (payload : List Byte) : Except UnitFault (List Byte) :=
  if payload.length = d.reqLen then
    match encodeRequest k d.id payload with
    | some frame => .ok frame
    | none => .error .badRequestPayload
  else .error .badRequestPayload

/-- Replace the value of the field `name`. A configuration may give the field another name, and then nothing is replaced:
DESIGN CHOICE, log entry 33. -/
def reinterpret (name : String) (f : Value → Value) (fs : Fields) : Fields :=
  fs.map fun nv => if nv.1 = name then (nv.1, f nv.2) else nv

/-- `U32(v)` becomes `ENUM(gas_label(v))` (R142, R144). A value of another type, which a configuration may give the field,
stays: DESIGN CHOICE, log entry 33. -/
def asGas (k : Config) : Value → Value
  | .u32 v => .enum (gasLabel k v)
  | v => v

/-- `U8(v)` becomes `ENUM(status_label(v))` (R150). A value of another type, which a configuration may give the field,
stays: DESIGN CHOICE, log entry 33. -/
def asStatus (k : Config) : Value → Value
  | .u8 v => .enum (statusLabel k v)
  | v => v

/-- `payload_decode_GENERIC` (R143): CONC, TEMP, PRES, REL_HUM, ABS_HUM. -/
def decodeGeneric (k : Config) (d : Descriptor) (raw : List Byte) : Except UnitFault Fields := decodeFields k raw d

/-- `payload_decode_ANSWER` (R142). -/
def decodeAnswer (k : Config) (d : Descriptor) (raw : List Byte) : Except UnitFault Fields :=
  (decodeFields k raw d).map (reinterpret "ID" (asGas k))

/-- `payload_decode_ID` (R144). -/
def decodeIdent (k : Config) (d : Descriptor) (raw : List Byte) : Except UnitFault Fields :=
  (decodeFields k raw d).map (reinterpret "ID" (asGas k))

/-- `payload_decode_STATUS` (R150). -/
def decodeStatus (k : Config) (d : Descriptor) (raw : List Byte) : Except UnitFault Fields :=
  (decodeFields k raw d).map (reinterpret "SENSOR_STATUS" (asStatus k))

/-- `payload_decode_VERSION` (R151), after the header test of R120. Names and layout are the rule's, whatever fields the
configuration gives: DESIGN CHOICE, log entry 33. -/
def decodeVersion (k : Config) (d : Descriptor) (raw : List Byte) : Except UnitFault Fields :=
  needHeader raw <|
    if raw.length = 14 then
      match memRead8 raw 1, subseq raw 6 4, subseq raw 10 2, subseq raw 12 2 with
      | some status, some sw, some hw, some protocol =>
        .ok (headerFields k d status ++
          [("SW_VERSION", .text (dotted sw)), ("HW_VERSION", .text (dotted hw)),
            ("PROTOCOL_VERSION", .text (dotted protocol))])
      | _, _, _, _ => .error .lengthMismatch
    else .error .lengthMismatch

/-- `payload_decode_SENSOR_INFO` (R152). -/
def decodeSensorInfo (k : Config) (d : Descriptor) (raw : List Byte) : Except UnitFault Fields := decodeFields k raw d

/-- `payload_decode_ENG_DATA` (R145): pass 1 reads the length field, pass 2 takes exactly that many bytes.
The header test of R120 comes first. Names and layout are the rule's, whatever fields the configuration gives: DESIGN
CHOICE, log entry 33. -/
def decodeEngData (k : Config) (d : Descriptor) (raw : List Byte) : Except UnitFault Fields :=
  needHeader raw <|
    match memRead8 raw 1, memRead32 raw 6 with
    | some status, some len =>
      if raw.length = 10 + len.toNat then
        .ok (headerFields k d status ++ [("LENGTH", .u32 len), ("DATA", .bytes (raw.drop 10))])
      else .error .lengthMismatch
    | _, _ => .error .lengthMismatch

/-- `payload_decode_<strategy>` (R141 step 3). No rule gives the decoder of strategy NONE, which `decode` reaches in no
well-formed configuration: DESIGN CHOICE, log entry 32. -/
def payloadDecode (k : Config) (d : Descriptor) (raw : List Byte) : Except UnitFault Fields :=
  match d.strategy with
  | .generic => decodeGeneric k d raw
  | .answer => decodeAnswer k d raw
  | .ident => decodeIdent k d raw
  | .status => decodeStatus k d raw
  | .version => decodeVersion k d raw
  | .sensorInfo => decodeSensorInfo k d raw
  | .engData => decodeEngData k d raw
  | .none => .error .noResponseExpected

/-- `decode` (R141), its tests in the order of spec/60_exceptions.md R207: request-only, short buffer, framing, status
gate, payload. -/
def decode (k : Config) (d : Descriptor) (raw : List Byte) : Except UnitFault Result :=
  if d.expectsResponse then
    match validateResponse k raw d.id, memRead8 raw 1 with
    | .ok true, some status =>
      if statusOk k status then (payloadDecode k d raw).map .decoded else decodeStatusOnly k raw
    | .ok false, _ => .ok .absent
    | .ok true, none => .error .shortBuffer
    | .error f, _ => .error f
  else .error .noResponseExpected

/-- The value of a field of a result, or nothing where the field is absent (spec/70_reset_and_hazards.md R235). -/
def fieldOf (name : String) : Result → Option Value
  | .decoded fs => (fs.find? fun nv => nv.1 == name).map Prod.snd
  | .none => none
  | .sent => none
  | .absent => none
  | .transportError => none

/-- `cycle_update` (R158). -/
def cycleUpdate (d : Descriptor) (r : Result) : Option DWord :=
  if d.name = "ANSWER" then
    match fieldOf "CYCLE_COUNT" r with
    | some (.u32 v) => some v
    | _ => none
  else none

end Sys2Proof.Machine
end

