-- ==== Sys2Proof/Machine/Sequencer.lean ====
section
/-! DEFINITION. The exchange sequencer (spec/44_exchange_sequencer.md): ISSUE of a command, RECV and IO_ERROR. -/

namespace Sys2Proof.Machine

/-- The state after the request of a command has been encoded and handed to TX (R181): an exchange is open, or a
request-only command is settled at once (R183). -/
def issued (d : Descriptor) (expected : Nat) (frame : List Byte) (s : State) : State :=
  let sent := emit [.tx frame] (loadRequest d.id frame s)
  if d.expectsResponse then openExchange expected sent else emit [.done .sent] (settle .sent sent)

/-- `ISSUE` (R181) of a command of the catalog. The tests come before the writes: a fault changes `fault` only. -/
def issue (k : Config) (c : Command) (payload : List Byte) (s : State) : Answer :=
  let d := k.catalog c
  guardIdle s (match encode k d payload, expectedResponseBytes k d.id with
    | .ok frame, .ok n => .next (issued d n frame s)
    | .error f, _ => .next (raiseFault f s)
    | _, .error f => .next (raiseFault f s))

/-- `ISSUE` of operands that name no instruction: `Busy` comes first, then the fault of the operands
(spec/60_exceptions.md R207). -/
def rejectIssue (f : UnitFault) (s : State) : Answer := guardIdle s (.next (raiseFault f s))

/-- `extend_engdata` (R185), on the unvalidated header and length field. -/
def extendEngData (k : Config) (s : State) : Except UnitFault State :=
  match memRead8 (received s) 1, memRead (received s) 6 4 with
  | some status, some len =>
    if statusOk k status then
      if len > k.engDataMaxL then .error .rxOverflow else .ok (setExpected (10 + len) s)
    else .ok s
  | _, _ => .error .shortBuffer

/-- The test of R184 for the tenth byte of an EngData response. -/
def extendStage (k : Config) (s : State) : Except UnitFault State :=
  if s.rxlen = 10 then
    match lookup k s.cmd with
    | .ok d => if d.strategy = .engData ∧ s.rxExpected = 10 then extendEngData k s else .ok s
    | .error f => .error f
  else .ok s

/-- `complete` (R186): decode what was received; a fault of decode changes `fault` only. -/
def complete (k : Config) (s : State) : State :=
  match lookup k s.cmd with
  | .error f => raiseFault f s
  | .ok d =>
    match decode k d (received s) with
    | .error f => raiseFault f s
    | .ok .absent => emit [.framingError, .done .absent] (settle .absent s)
    | .ok r => emit [.done r] (settle r s)

/-- `RX_BYTE` (R184). -/
def rxByte (k : Config) (b : Byte) (s : State) : Answer :=
  guardFault s (match s.phase with
    | .idle => .next (raiseFault .unexpectedRx s)
    | .await =>
      if s.rxlen < k.rxCap then
        match extendStage k (pushRx b s) with
        | .error f => .next (raiseFault f (pushRx b s))
        | .ok t => .next (if t.rxlen = t.rxExpected then complete k t else t)
      else .fault .outsideBuffer)

/-- The loop of `RECV` (R184). A fault ends the operation (spec/00_scope.md R9): the bytes after it are not taken, log
entry 18. -/
def rxBytes (k : Config) : List Byte → State → Answer
  | [], s => .next s
  | b :: bs, s =>
    match rxByte k b s with
    | .next t => if t.fault = none then rxBytes k bs t else .next t
    | .fault f => .fault f
    | .refused r => .refused r

/-- `RECV(bytes)` (R184). -/
def recv (k : Config) (bytes : List Byte) (s : State) : Answer := guardFault s (rxBytes k bytes s)

/-- `IO_ERROR` (R187), in either phase. -/
def ioError (s : State) : Answer :=
  guardFault s (.next (emit [.done .transportError] (dropRx (settle .transportError s))))

end Sys2Proof.Machine
end

