-- ==== Sys2Proof/Machine/DeviceCommands.lean ====
section
/-! DEFINITION. The meanings of the device commands (spec/43_command_variants.md R145, R150 to R152): each is the ISSUE
of its command (spec/44_exchange_sequencer.md R181), whose response RECV decodes by the command's strategy
(`payloadDecode`). Each meaning takes the configuration (spec/10_state.md R33); `exec` names the one of `mps`. -/

namespace Sys2Proof.Machine

/-- `ENG_DATA` (R145): the first stage awaits ten bytes. -/
def runEngData (k : Config) (s : State) : Answer := issue k .engData [] s

/-- `ENG_DATA` (R145), in the unit of `mps`. -/
def execEngData (s : State) : Answer := runEngData mps s

/-- `STATUS` (R150). -/
def runStatus (k : Config) (s : State) : Answer := issue k .status [] s

/-- `STATUS` (R150), in the unit of `mps`. -/
def execStatus (s : State) : Answer := runStatus mps s

/-- `VERSION` (R151). -/
def runVersion (k : Config) (s : State) : Answer := issue k .version [] s

/-- `VERSION` (R151), in the unit of `mps`. -/
def execVersion (s : State) : Answer := runVersion mps s

/-- `SENSOR_INFO` (R152). -/
def runSensorInfo (k : Config) (s : State) : Answer := issue k .sensorInfo [] s

/-- `SENSOR_INFO` (R152), in the unit of `mps`. -/
def execSensorInfo (s : State) : Answer := runSensorInfo mps s

end Sys2Proof.Machine
end

