-- ==== Sys2Proof/Machine/MeasurementCommands.lean ====
section
/-! DEFINITION. The meanings of the measurement commands (spec/43_command_variants.md R142 to R144, R146 to R149): each
is the ISSUE of its command (spec/44_exchange_sequencer.md R181), whose response RECV decodes by the command's strategy
(`payloadDecode`). Each meaning takes the configuration (spec/10_state.md R33); `exec` names the one of `mps`. -/

namespace Sys2Proof.Machine

/-- `ANSWER` (R142). -/
def runAnswer (k : Config) (s : State) : Answer := issue k .answer [] s

/-- `ANSWER` (R142), in the unit of `mps`. -/
def execAnswer (s : State) : Answer := runAnswer mps s

/-- `CONC` (R143). -/
def runConc (k : Config) (s : State) : Answer := issue k .conc [] s

/-- `CONC` (R143), in the unit of `mps`. -/
def execConc (s : State) : Answer := runConc mps s

/-- `ID` (R144). -/
def runIdent (k : Config) (s : State) : Answer := issue k .ident [] s

/-- `ID` (R144), in the unit of `mps`. -/
def execIdent (s : State) : Answer := runIdent mps s

/-- `TEMP` (R146). -/
def runTemp (k : Config) (s : State) : Answer := issue k .temp [] s

/-- `TEMP` (R146), in the unit of `mps`. -/
def execTemp (s : State) : Answer := runTemp mps s

/-- `PRES` (R147). -/
def runPres (k : Config) (s : State) : Answer := issue k .pres [] s

/-- `PRES` (R147), in the unit of `mps`. -/
def execPres (s : State) : Answer := runPres mps s

/-- `REL_HUM` (R148). -/
def runRelHum (k : Config) (s : State) : Answer := issue k .relHum [] s

/-- `REL_HUM` (R148), in the unit of `mps`. -/
def execRelHum (s : State) : Answer := runRelHum mps s

/-- `ABS_HUM` (R149). -/
def runAbsHum (k : Config) (s : State) : Answer := issue k .absHum [] s

/-- `ABS_HUM` (R149), in the unit of `mps`. -/
def execAbsHum (s : State) : Answer := runAbsHum mps s

end Sys2Proof.Machine
end

