-- ==== Sys2Proof/Machine/RequestOnly.lean ====
section
/-! DEFINITION. The meanings of the two request-only commands (spec/43_command_variants.md R153, R154): the exchange is
over when the frame is handed to TX (spec/44_exchange_sequencer.md R183). Each meaning takes the configuration
(spec/10_state.md R33); `exec` names the one of `mps`. -/

namespace Sys2Proof.Machine

/-- `MEAS` (R153). -/
def runMeas (k : Config) (unit mode : Nibble) (s : State) : Answer := issue k .meas [measByte unit mode] s

/-- `MEAS` (R153), in the unit of `mps`. -/
def execMeas (unit mode : Nibble) (s : State) : Answer := runMeas mps unit mode s

/-- `SHUTDOWN` (R154). -/
def runShutdown (k : Config) (s : State) : Answer := issue k .shutdown [] s

/-- `SHUTDOWN` (R154), in the unit of `mps`. -/
def execShutdown (s : State) : Answer := runShutdown mps s

end Sys2Proof.Machine
end

