-- ==== Sys2Proof/Machine/Dispatch.lean ====
section
/-! DEFINITION. One arm per instruction, each a direct call of its meaning. -/

namespace Sys2Proof.Machine

open Sys2Proof

def exec (i : Instr) (s : State) : Host.Outcome State Fault Refusal :=
  match i with
  | .answer => Sys2Proof.Machine.execAnswer s
  | .conc => Sys2Proof.Machine.execConc s
  | .ident => Sys2Proof.Machine.execIdent s
  | .engData => Sys2Proof.Machine.execEngData s
  | .temp => Sys2Proof.Machine.execTemp s
  | .pres => Sys2Proof.Machine.execPres s
  | .relHum => Sys2Proof.Machine.execRelHum s
  | .absHum => Sys2Proof.Machine.execAbsHum s
  | .status => Sys2Proof.Machine.execStatus s
  | .version => Sys2Proof.Machine.execVersion s
  | .sensorInfo => Sys2Proof.Machine.execSensorInfo s
  | .meas unit mode => Sys2Proof.Machine.execMeas unit mode s
  | .shutdown => Sys2Proof.Machine.execShutdown s

end Sys2Proof.Machine
end

