-- ==== Sys2Proof/Machine/Operations.lean ====
section
/-! DEFINITION. The host's side of a step (spec/44_exchange_sequencer.md R180): performing one host operation, taking
the next one, the scripts of spec/30_encoding.md R77, and what the host can read (spec/10_state.md R32). The
configuration is an argument of every operation and of the step (spec/00_scope.md R6, spec/10_state.md R33). -/

namespace Sys2Proof.Machine

/-- The meaning of an instruction in the unit of a configuration. In the unit of `mps` it is `exec`
(`exec_eq_runInstr`). -/
def runInstr (k : Config) (i : Instr) (s : State) : Answer :=
  match i with
  | .answer => runAnswer k s
  | .conc => runConc k s
  | .ident => runIdent k s
  | .engData => runEngData k s
  | .temp => runTemp k s
  | .pres => runPres k s
  | .relHum => runRelHum k s
  | .absHum => runAbsHum k s
  | .status => runStatus k s
  | .version => runVersion k s
  | .sensorInfo => runSensorInfo k s
  | .meas unit mode => runMeas k unit mode s
  | .shutdown => runShutdown k s

/-- Perform one host operation (R180). An ISSUE runs the instruction its operands decode to. -/
def perform (k : Config) (op : HostOp) (s : State) : Answer :=
  match op with
  | .issue id payload =>
    match decodeRequest k id payload with
    | .ok i => runInstr k i s
    | .error f => rejectIssue f s
  | .recv bytes => recv k bytes s
  | .ioError => ioError s
  | .reset => .next (resetUnit s)
  | .crcLoad seed => crcLoad seed s
  | .crcByte b => crcByte k b s
  | .crcRead => crcRead s

/-- The operations after the first RESET of a list, if it holds one. -/
def afterReset : List HostOp → Option (List HostOp)
  | [] => none
  | .reset :: rest => some rest
  | _ :: rest => afterReset rest

/-- The next operation of an unfaulted unit. Without one the unit waits, and nothing changes: it has no step of its own
that ends a wait (R189; log entry 15). -/
def serve (k : Config) (s : State) : Answer :=
  match s.inputs with
  | [] => .next s
  | op :: rest => perform k op (setInputs rest s)

/-- One step. In a faulted unit only RESET has a step (spec/60_exceptions.md R208): the operations before it do nothing
(spec/95_test_vectors.md P3; log entry 16). -/
def takeStep (k : Config) (s : State) : Answer :=
  match s.fault with
  | none => serve k s
  | some f =>
    match afterReset s.inputs with
    | some rest => .next (resetUnit (setInputs rest s))
    | none => .fault (.stuck f)

/-- Make the ISSUE of a request image the next operation. An image that stands for no ISSUE changes nothing. -/
def placeRequest (bytes : List Byte) (s : State) : State :=
  match issueOfImage bytes with
  | some op => setInputs (op :: s.inputs) s
  | none => s

/-- The ISSUE of an instruction (R181): the identifier of its command and its payload. -/
def issueOf (k : Config) (i : Instr) : HostOp := .issue (k.catalog (instrCommand i)).id (instrPayload i)

/-- The pseudo-operation `EXCHANGE` (spec/30_encoding.md R77). -/
def exchangeScript (k : Config) (i : Instr) (bytes : List Byte) : List HostOp := [issueOf k i, .recv bytes]

/-- The host's shutdown sequence (spec/60_exceptions.md R214): stop measuring, then shut down. -/
def shutdownScript (k : Config) (unit : Nibble) : List HostOp :=
  [issueOf k (.meas unit k.modeStopped), issueOf k .shutdown]

/-- The register-level form of `crc16` (spec/40_checksum_unit.md R97). -/
def crcScript (seed : Word) (bytes : List Byte) : List HostOp := .crcLoad seed :: bytes.map .crcByte ++ [.crcRead]

/-- What the host can read of the state (spec/10_state.md R32): phase, awaited count, result, fault. -/
def readable (s : State) : Phase × Nat × Result × Option UnitFault := (s.phase, s.rxExpected, s.result, s.fault)

/-- The derived output `cycle_update` for the last exchange (spec/43_command_variants.md R158). -/
def cycleOutput (k : Config) (s : State) : Option DWord :=
  match lookup k s.cmd with
  | .ok d => cycleUpdate d s.result
  | .error _ => none

end Sys2Proof.Machine
end

