-- ==== Sys2Proof/Machine/Step.lean ====
section
/-! DEFINITION. One step of the machine, and placing an instruction as its next operation. -/

namespace Sys2Proof.Machine

/-- One step of the unit of `mps`: it performs the next host operation (spec/44_exchange_sequencer.md R180). The step of
the unit of any configuration is `takeStep`. -/
def step (s : State) : Host.Outcome State Fault Refusal := takeStep mps s

/-- The instruction of a table word as the next host operation: the ISSUE its request image stands for. -/
def State.withFetchWord (s : State) (nbits w : Nat) : State := placeRequest (tableImage nbits w) s

end Sys2Proof.Machine
end

