-- ==== Sys2Proof/Safety.lean ====
section
/-! DEFINITION. What counts as a safe run, in the terms the claims use: the invariant of the unit's states, the host's
contract (spec/60_exceptions.md R212), and the synthetic responses of spec/95_test_vectors.md section 1. What depends on
the configuration takes it as an argument. -/

namespace Sys2Proof.Safety

open Sys2Proof.Machine

/-- Quiescent (spec/44_exchange_sequencer.md R189): no exchange open and no fault. -/
abbrev quiescent (s : State) : Prop := s.phase = .idle ∧ s.fault = none

/-- Both buffers are canonical and lie within their capacity, and their lengths do too (spec/20_memory.md R40, R54). -/
def buffersFit (k : Config) (s : State) : Prop :=
  (s.txbuf.wf = true ∧ Memory.within k.txCap s.txbuf = true ∧ s.txlen ≤ k.txCap) ∧
  (s.rxbuf.wf = true ∧ Memory.within k.rxCap s.rxbuf = true ∧ s.rxlen ≤ k.rxCap)

/-- `txbuf` holds the request frame of the instruction last issued, whose identifier is in `cmd`
(spec/10_state.md R22, R24), or nothing has been issued since reset. -/
def requestHeld (k : Config) (s : State) : Prop :=
  (s.txlen = 0 ∧ s.phase = .idle) ∨
  ∃ i : Instr, s.cmd = (k.catalog (instrCommand i)).id ∧ sentFrame s = encodeInstr k i

/-- The number of bytes an open exchange of command `c` awaits (spec/42_frame_codec.md R126; EngData's second stage is
spec/44_exchange_sequencer.md R185). -/
def awaits (k : Config) (c : Command) (s : State) : Prop :=
  if c = .engData then
    s.rxExpected = 10 ∨
    ∃ status len, memRead8 (received s) 1 = some status ∧ statusOk k status = true ∧
      memRead (received s) 6 4 = some len ∧ len ≤ k.engDataMaxL ∧ s.rxExpected = 10 + len
  else s.rxExpected = respHdr + (k.catalog c).respLen

/-- An open, unfaulted exchange: a command that expects a response, no result yet, and fewer bytes received than awaited
(R184). -/
def exchangeOpen (k : Config) (s : State) : Prop :=
  ∃ c : Command, (k.catalog c).expectsResponse = true ∧ s.cmd = (k.catalog c).id ∧ s.result = .none ∧
    s.rxlen < s.rxExpected ∧ awaits k c s

/-- The awaited count is 0 in IDLE (spec/10_state.md R26) and fits `rxbuf`, and an exchange in AWAIT is open. -/
def phaseConsistent (k : Config) (s : State) : Prop :=
  (s.phase = .idle → s.rxExpected = 0) ∧ s.rxExpected ≤ k.rxCap ∧
  (s.phase = .await → s.fault = none → exchangeOpen k s)

/-- A decoded response (spec/10_state.md R27): `CommandId` first, `Status` second, names pairwise distinct, and exactly
these two fields when the status is not OK. -/
def wellShaped (fs : Fields) : Prop :=
  (fs.map Prod.fst).Nodup ∧
  ∃ name label rest, fs = ("CommandId", .text name) :: ("Status", .enum label) :: rest ∧
    (label ≠ .status .ok → rest = [])

/-- The result, where it holds fields, is well shaped. -/
def resultShaped (s : State) : Prop := ∀ fs, s.result = .decoded fs → wellShaped fs

/-- The invariant of the states of a configuration's unit. -/
def unitInvariant (k : Config) (s : State) : Prop := buffersFit k s ∧ requestHeld k s ∧ phaseConsistent k s ∧ resultShaped s

/-- An operation the host may invoke under its contract (spec/60_exceptions.md R212 lines 1, 4, 5), and the checksum
operations where spec/40_checksum_unit.md R97 admits them. -/
def hostAllowed (k : Config) (s : State) : HostOp → Prop
  | .issue id payload =>
    s.phase = .idle ∧ ∃ c : Command, id = (k.catalog c).id ∧ payload.length = (k.catalog c).reqLen
  | .recv bytes => s.phase = .await ∧ bytes ≠ [] ∧ s.rxlen + bytes.length ≤ s.rxExpected
  | .ioError => True
  | .reset => True
  | .crcLoad _ => s.phase = .idle
  | .crcByte _ => s.phase = .idle ∧ s.crc ≠ none
  | .crcRead => s.phase = .idle ∧ s.crc ≠ none

/-- `encode_into_response` (spec/42_frame_codec.md R129, spec/95_test_vectors.md section 1): a response frame with a correct
checksum. The rule's `len(payload) >> 8` is no byte for a payload above 65535 bytes; the length field then holds the length
modulo 65536. DESIGN CHOICE, log entry 29: no rule of the unit reads that field (spec/30_encoding.md R76). -/
def encodeIntoResponse (k : Config) (id status : Byte) (payload : List Byte) : List Byte :=
  let n : Word := BitVec.ofNat 16 payload.length
  let b0 := [id, status, loByte n, hiByte n, 0, 0] ++ payload
  memWrite16 b0 4 (crc16 k k.crcSeed b0)

/-- The four bytes of a 32-bit value, little-endian (spec/20_memory.md R41). -/
def dwordBytes (v : DWord) : List Byte := leBytes 4 v.toNat

/-- A byte sequence with bit `j` of byte `p` flipped. -/
def flipBit (b : List Byte) (p j : Nat) : List Byte := b.modify p fun x => x ^^^ BitVec.twoPow 8 j

/-- The machine's own run of `n` steps, stopping at the first fault. -/
abbrev run (n : Nat) (s : State) : Answer := Host.Core.run core n s

/-- Every field but `fault` unchanged, and `fault` raised: what a faulting operation leaves (R208). -/
def faulted (f : UnitFault) (s : State) : State := { s with fault := some f }

end Sys2Proof.Safety
end

