-- ==== Sys2Proof/Certificates/Slice0/Obligations.lean ====
section
/-! DEFINITION. The statements for the provers. Each docstring names the rule of spec/ it formalises; where a clause
rests on a choice of the model, it names the log entry. -/

open Sys2Proof Sys2Proof.Machine Sys2Proof.Safety

/-! ### Encoding and decoding of requests -/

/-- R61, R66, R67, R78, for every well-formed configuration (log entry 30), whatever its identifiers: the decoder gives back
every instruction from its request frame, with every operand at every value, and leaves the bytes after the frame. -/
def Obligations.DecodeOfEncodeGivesInstruction : Prop :=
  ∀ (k : Config) (i : Instr) (rest : List Byte), k.wf = true → decodeFrame k (encodeInstr k i ++ rest) = .ok (i, rest)

/-- spec/95_test_vectors.md Q1, Q4, Q17, Q12: frames written out from the spec decode to the commands they stand for.
The identifiers are PRESUMED (log entry 1). -/
def Obligations.WrittenOutFramesDecode : Prop :=
  decodeFrame mps [0x01, 0x00, 0x00, 0x00, 0x00, 0x00, 0xED, 0x76] = .ok (.answer, []) ∧
  decodeFrame mps [0x09, 0x00, 0x00, 0x00, 0x00, 0x00, 0x37, 0x68] = .ok (.engData, []) ∧
  decodeFrame mps [0x61, 0x00, 0x01, 0x00, 0x00, 0x00, 0x47, 0x91, 0x13] = .ok (.meas 1 3, []) ∧
  decodeFrame mps [0x62, 0x00, 0x00, 0x00, 0x00, 0x00, 0x20, 0x33] = .ok (.shutdown, [])

/-- R61, R63, R64, for every well-formed configuration (log entry 30): whatever decodes has the identifier and the length of
its command, a zero reserved field, and the operand bytes after the header. -/
def Obligations.DecodedFramesHaveTheirHeader : Prop :=
  ∀ (k : Config) (bytes rest : List Byte) (i : Instr), k.wf = true → decodeFrame k bytes = .ok (i, rest) →
    memRead16 bytes 0 = some (k.catalog (instrCommand i)).id ∧
    memRead bytes 2 2 = some (k.catalog (instrCommand i)).reqLen ∧
    memRead16 bytes 4 = some 0 ∧
    bytes.drop 8 = instrPayload i ++ rest

/-- R63, R64, R73, for every well-formed configuration (log entry 30): a frame that is no request of the unit is refused by
name. The order of the tests is the model's (log entry 21). -/
def Obligations.OtherFramesAreRefusedByName : Prop :=
  ∀ (k : Config) (bytes : List Byte), k.wf = true →
    (bytes.length < 8 → decodeFrame k bytes = .error .truncated) ∧
    (8 ≤ bytes.length → ∀ id len reserved, memRead16 bytes 0 = some id → memRead bytes 2 2 = some len →
      memRead16 bytes 4 = some reserved →
      (reserved ≠ 0 → decodeFrame k bytes = .error .reservedNotZero) ∧
      (reserved = 0 → (∀ c, (k.catalog c).id ≠ id) → decodeFrame k bytes = .error .unknownCommand) ∧
      (reserved = 0 → ∀ c, (k.catalog c).id = id → len ≠ (k.catalog c).reqLen →
        decodeFrame k bytes = .error .badLength))

/-- R140, R67, for every well-formed configuration (log entry 30): the frame the machine encodes for an instruction is the
one its opcode-table row gives. -/
def Obligations.MachineEncodesTheTableFrame : Prop :=
  ∀ (k : Config) (i : Instr), k.wf = true →
    encode k (k.catalog (instrCommand i)) (instrPayload i) = .ok (encodeInstr k i)

/-- R128, which the spec derives from R115: the request is self-consistent, whatever its identifier and payload. -/
def Obligations.RequestIsSelfConsistent : Prop :=
  ∀ (k : Config) (id : Word) (p : List Byte), k.crcSeed = 0xFFFF → p.length ≤ 65535 →
    ∃ F, encodeRequest k id p = some F ∧ F.length = 8 + p.length ∧
      memRead16 F 0 = some id ∧ memRead F 2 2 = some p.length ∧ memRead16 F 4 = some 0 ∧ F.drop 8 = p ∧
      memRead16 F 6 = some (crc16 k 0xFFFF (memWrite16 F 6 0))

/-- R70: the selectors lie in the high and the low nibble, and every byte is the payload of one pair. -/
def Obligations.MeasByteHoldsBothSelectors : Prop :=
  (∀ unit mode : Nibble, (measByte unit mode).toNat = 16 * unit.toNat + mode.toNat ∧
    measUnit (measByte unit mode) = unit ∧ measMode (measByte unit mode) = mode) ∧
  (∀ p : Byte, measByte (measUnit p) (measMode p) = p)

/-! ### Bytes -/

/-- R42, which the spec derives from R41: little-endian reads of 1, 2 and 4 bytes, defined within the length only. -/
def Obligations.MemReadIsLittleEndian : Prop :=
  ∀ (buf : List Byte) (off : Nat),
    (∀ n, buf.length < off + n → memRead buf off n = none) ∧
    (∀ b0, buf[off]? = some b0 → memRead buf off 1 = some b0.toNat) ∧
    (∀ b0 b1, buf[off]? = some b0 → buf[off + 1]? = some b1 → memRead buf off 2 = some (b0.toNat + 256 * b1.toNat)) ∧
    (∀ b0 b1 b2 b3, buf[off]? = some b0 → buf[off + 1]? = some b1 → buf[off + 2]? = some b2 → buf[off + 3]? = some b3 →
      memRead buf off 4 = some (b0.toNat + 256 * b1.toNat + 65536 * b2.toNat + 16777216 * b3.toNat))

/-- R43, which the spec derives from R41: what a 2-byte write stores, that it stores nothing else, and that it reads back; and the same of one byte. -/
def Obligations.MemWriteReadsBack : Prop :=
  ∀ (buf : List Byte) (off : Nat),
    (∀ v : Byte, off + 1 ≤ buf.length → memRead8 (memWrite8 buf off v) off = some v ∧
      ∀ j, j ≠ off → (memWrite8 buf off v)[j]? = buf[j]?) ∧
    (∀ v : Word, off + 2 ≤ buf.length → memRead16 (memWrite16 buf off v) off = some v ∧
      (memWrite16 buf off v)[off]? = some (BitVec.ofNat 8 (v.toNat % 256)) ∧
      (memWrite16 buf off v)[off + 1]? = some (BitVec.ofNat 8 (v.toNat / 256)) ∧
      ∀ j, j ≠ off → j ≠ off + 1 → (memWrite16 buf off v)[j]? = buf[j]?)

/-- R156: all the trailing zeros go, and nothing else. -/
def Obligations.OnlyTrailingZerosAreStripped : Prop :=
  ∀ b : List Byte, (∃ n, b = stripNul b ++ List.replicate n 0) ∧ (stripNul b).getLast? ≠ some 0

/-! ### The checksum unit -/

/-- R93, which the spec derives from R92, for every polynomial. -/
def Obligations.TableFormEqualsBitSerialForm : Prop :=
  ∀ (k : Config) (c : Word) (b : Byte), crcStep k c b = crcStepBits k c b

/-- R96 laws 1, 2 and 4, which the spec derives from R90 to R93. -/
def Obligations.ChecksumChainsAndKeepsZero : Prop :=
  ∀ k : Config, (∀ s, crc16 k s [] = s) ∧ (∀ s A B, crc16 k s (A ++ B) = crc16 k (crc16 k s A) B) ∧
    (∀ n, crc16 k 0 (List.replicate n 0) = 0)

/-- R96 law 3, derived in the spec, in both arguments at once. -/
def Obligations.ChecksumIsLinear : Prop :=
  ∀ (k : Config) (s1 s2 : Word) (A B : List Byte), A.length = B.length →
    crc16 k s1 A ^^^ crc16 k s2 B = crc16 k (s1 ^^^ s2) (List.zipWith (fun a b => a ^^^ b) A B)

/-- R96 law 5, derived in the spec, for every polynomial with bit 0 set. -/
def Obligations.SingleBitErrorsChangeTheChecksum : Prop :=
  ∀ (k : Config) (s : Word) (A : List Byte) (p j : Nat), k.polyOdd = true → p < A.length → j < 8 →
    crc16 k s (flipBit A p j) ≠ crc16 k s A

/-- R97: the three register operations in AWAIT, in IDLE, and without a value. The event that carries the value read is
the model's rendering of its return (log entry 14). -/
def Obligations.ChecksumRegisterOperations : Prop :=
  ∀ (k : Config) (s : State) (seed : Word) (b : Byte), s.fault = none →
    (s.phase = .await → ∀ op ∈ [HostOp.crcLoad seed, .crcByte b, .crcRead], perform k op s = .next (faulted .busy s)) ∧
    (s.phase = .idle → perform k (.crcLoad seed) s = .next { s with crc := some seed }) ∧
    (s.phase = .idle → ∀ c, s.crc = some c →
      perform k (.crcByte b) s = .next { s with crc := some (crcStep k c b) } ∧
      perform k .crcRead s = .next { s with outputs := s.outputs ++ [.crcValue c] }) ∧
    (s.phase = .idle → s.crc = none →
      perform k (.crcByte b) s = .next (faulted .crcUnloaded s) ∧ perform k .crcRead s = .next (faulted .crcUnloaded s))

/-- R97: CRC_LOAD, the bytes in order and CRC_READ give crc16, run by the machine's own steps. That the operations stand in a queue, and
that the value read is an event, is the model's choice (log entries 13, 14). -/
def Obligations.RegisterFormComputesTheChecksum : Prop :=
  ∀ (s : State) (seed : Word) (bytes : List Byte) (rest : List HostOp), s.fault = none → s.phase = .idle →
    s.inputs = crcScript seed bytes ++ rest →
    run (bytes.length + 2) s = .next { s with
        crc := some (crc16 mps seed bytes), inputs := rest,
        outputs := s.outputs ++ [.crcValue (crc16 mps seed bytes)] }

/-- R21: no operation but CRC_LOAD, CRC_BYTE and RESET touches the checksum register. -/
def Obligations.FrameOperationsLeaveTheChecksumRegister : Prop :=
  ∀ (k : Config) (op : HostOp) (s t : State), perform k op s = .next t → (∀ seed, op ≠ .crcLoad seed) → (∀ b, op ≠ .crcByte b) →
    op ≠ .reset → t.crc = s.crc

/-! ### The catalog and the enumerations -/

/-- R107: all sixteen bits of an identifier are compared. -/
def Obligations.LookupComparesAllSixteenBits : Prop :=
  ∀ id : Word,
    (∀ c, (mps.catalog c).id = id → lookup mps id = .ok (mps.catalog c)) ∧
    ((∀ c, (mps.catalog c).id ≠ id) → lookup mps id = .error .unknownCommand)

/-- R126: the count of each command, and the fault of an identifier outside the catalog. -/
def Obligations.ExpectedResponseBytesPerCommand : Prop :=
  (∀ id, (∀ c, (mps.catalog c).id ≠ id) → expectedResponseBytes mps id = .error .unknownCommand) ∧
  ∀ row ∈ [(Command.answer, 34), (.conc, 10), (.ident, 10), (.engData, 10), (.temp, 10), (.pres, 10), (.relHum, 10),
      (.absHum, 10), (.status, 7), (.version, 14), (.sensorInfo, 74), (.meas, 0), (.shutdown, 0)],
    expectedResponseBytes mps (mps.catalog row.1).id = .ok row.2

/-- R122, R74: a status code has the label whose code it is, and no other; a code of no label is unrecognised; and only
the code of OK is OK. -/
def Obligations.StatusLabelsByCode : Prop :=
  ∀ code : Byte,
    (∀ l, statusLabel mps code = .status l ↔ code = mps.statusCode l) ∧
    ((∀ l, code ≠ mps.statusCode l) → statusLabel mps code = .unrecognised code.toNat) ∧
    (statusOk mps code = true ↔ code = mps.statusCode .ok)

/-- R155: all 32 bits are compared. -/
def Obligations.GasLabelsByCode : Prop :=
  ∀ v : DWord,
    (∀ l, gasLabel mps v = .gas l ↔ v = mps.gasCode l) ∧
    ((∀ l, v ≠ mps.gasCode l) → gasLabel mps v = .unrecognised v.toNat)

/-! ### Validating and decoding a response -/

/-- R118: only a response whose echo, zero-extended, is the identifier sent can be valid. -/
def Obligations.EchoMatchesAllSixteenBits : Prop :=
  ∀ (k : Config) (raw : List Byte) (id : Word),
    (validateResponse k raw id = .ok true → ∃ echo, raw[0]? = some echo ∧ echo.setWidth 16 = id) ∧
    (256 ≤ id.toNat → validateResponse k raw id ≠ .ok true)

/-- R120: fewer than six bytes fault, in validation, in `decode` and in every decoder called directly; six are enough for
a validation to have a value. -/
def Obligations.ShortBuffersFault : Prop :=
  ∀ (k : Config) (raw : List Byte),
    (raw.length < 6 → (∀ id, validateResponse k raw id = .error .shortBuffer) ∧
      decodeStatusOnly k raw = .error .shortBuffer ∧
      (∀ d : Descriptor, d.expectsResponse = true → decode k d raw = .error .shortBuffer) ∧
      (∀ d : Descriptor, decodeFields k raw d = .error .shortBuffer) ∧
      ∀ d : Descriptor, d.strategy ≠ .none → payloadDecode k d raw = .error .shortBuffer) ∧
    (6 ≤ raw.length → ∀ id, ∃ valid, validateResponse k raw id = .ok valid)

/-- R127, derived in the spec, for every polynomial with bit 0 set and every seed: a frame carrying its own checksum is valid, and no frame
one bit away is. -/
def Obligations.ChecksumDetectsEverySingleBitError : Prop :=
  ∀ (k : Config) (B : List Byte), k.polyOdd = true → 6 ≤ B.length →
    validateResponse k (memWrite16 B 4 (responseChecksum k B)) ((B.getD 0 0).setWidth 16) = .ok true ∧
    ∀ p j, p < B.length → j < 8 →
      validateResponse k (flipBit (memWrite16 B 4 (responseChecksum k B)) p j) ((B.getD 0 0).setWidth 16) = .ok false

/-- R121, R141 step 2, R203: a valid response whose status is not OK decodes to its identifier and its status alone,
whatever follows the header. -/
def Obligations.StatusGateYieldsTwoFields : Prop :=
  ∀ (c : Command) (raw : List Byte) (status : Byte), (mps.catalog c).expectsResponse = true →
    validateResponse mps raw (mps.catalog c).id = .ok true → memRead8 raw 1 = some status →
    status ≠ mps.statusCode .ok →
    decode mps (mps.catalog c) raw =
      .ok (.decoded [("CommandId", .text (mps.catalog c).name), ("Status", .enum (statusLabel mps status))])

/-- R141, R207: request-only first, then framing, then, for a valid OK response, the length its layout needs. -/
def Obligations.DecodeTestsInOrder : Prop :=
  ∀ (c : Command) (raw : List Byte),
    ((mps.catalog c).expectsResponse = false → decode mps (mps.catalog c) raw = .error .noResponseExpected) ∧
    ((mps.catalog c).expectsResponse = true → validateResponse mps raw (mps.catalog c).id = .ok false →
      decode mps (mps.catalog c) raw = .ok .absent) ∧
    ((mps.catalog c).expectsResponse = true → validateResponse mps raw (mps.catalog c).id = .ok true →
      memRead8 raw 1 = some (mps.statusCode .ok) →
      (c ≠ .engData → raw.length ≠ 6 + (mps.catalog c).respLen →
        decode mps (mps.catalog c) raw = .error .lengthMismatch) ∧
      (c = .engData → (∀ len, memRead raw 6 4 = some len → raw.length ≠ 10 + len) →
        decode mps (mps.catalog c) raw = .error .lengthMismatch))

/-- R123, R143, R146 to R149 on R129's synthetic responses: the single 32-bit pattern, laid out little-endian
(R41; log entry 6), comes back unchanged. The identifiers, status byte 0x00 as OK, and the field names and types are
PRESUMED (log entries 1, 2, 4). -/
def Obligations.SingleValueResponsesRoundTrip : Prop :=
  ∀ row ∈ [(Command.conc, "CONC"), (.temp, "TEMP"), (.pres, "PRESSURE"), (.relHum, "REL_HUM"), (.absHum, "ABS_HUM")],
    ∀ v : DWord,
      decode mps (mps.catalog row.1)
          (encodeIntoResponse mps ((mps.catalog row.1).id.setWidth 8) 0x00 (dwordBytes v)) =
        .ok (.decoded [("CommandId", .text (mps.catalog row.1).name), ("Status", .enum (.status .ok)),
          (row.2, .f32 v)])

/-- R142 on R129's synthetic responses, the values laid out little-endian (R41; log entry 6). The identifier, status byte
0x00 as OK, and the field names, order and types are PRESUMED (log entries 1, 2, 4). -/
def Obligations.AnswerResponsesRoundTrip : Prop :=
  ∀ cycle conc gas temp pres rel abs : DWord,
    decode mps (mps.catalog .answer)
        (encodeIntoResponse mps 0x01 0x00 (dwordBytes cycle ++ dwordBytes conc ++ dwordBytes gas ++ dwordBytes temp ++
          dwordBytes pres ++ dwordBytes rel ++ dwordBytes abs)) =
      .ok (.decoded [("CommandId", .text "ANSWER"), ("Status", .enum (.status .ok)), ("CYCLE_COUNT", .u32 cycle),
        ("CONC", .f32 conc), ("ID", .enum (gasLabel mps gas)), ("TEMP", .f32 temp), ("PRESSURE", .f32 pres),
        ("REL_HUM", .f32 rel), ("ABS_HUM", .f32 abs)])

/-- R144 and R150 on R129's synthetic responses: the single field, laid out little-endian (R41; log
entry 6), comes back as its label. The identifiers, status byte 0x00 as OK, and the field names and types are PRESUMED
(log entries 1, 2, 4). -/
def Obligations.LabelledResponsesRoundTrip : Prop :=
  (∀ v : DWord, decode mps (mps.catalog .ident) (encodeIntoResponse mps 0x04 0x00 (dwordBytes v)) =
    .ok (.decoded [("CommandId", .text "ID"), ("Status", .enum (.status .ok)), ("ID", .enum (gasLabel mps v))])) ∧
  (∀ v : Byte, decode mps (mps.catalog .status) (encodeIntoResponse mps 0x41 0x00 [v]) =
    .ok (.decoded [("CommandId", .text "STATUS"), ("Status", .enum (.status .ok)),
      ("SENSOR_STATUS", .enum (statusLabel mps v))]))

/-- R151, R157 on R129's synthetic responses: every byte prints as its decimal value. The identifier and status
byte 0x00 as OK are PRESUMED (log entries 1, 2). -/
def Obligations.VersionResponsesRoundTrip : Prop :=
  ∀ a b c d e f g h : Byte,
    decode mps (mps.catalog .version) (encodeIntoResponse mps 0x42 0x00 [a, b, c, d, e, f, g, h]) =
      .ok (.decoded [("CommandId", .text "VERSION"), ("Status", .enum (.status .ok)),
        ("SW_VERSION", .text (Nat.repr a.toNat ++ "." ++ Nat.repr b.toNat ++ "." ++ Nat.repr c.toNat ++ "." ++
          Nat.repr d.toNat)),
        ("HW_VERSION", .text (Nat.repr e.toNat ++ "." ++ Nat.repr f.toNat)),
        ("PROTOCOL_VERSION", .text (Nat.repr g.toNat ++ "." ++ Nat.repr h.toNat))])

/-- R152 on R129's synthetic responses, the sensor type laid out little-endian (R41; log entry 6). The identifier, status
byte 0x00 as OK, and the field names SERIAL_NUM, SENSOR_TYPE, CAL_DATE and MFG_DATE are PRESUMED (log entries 1, 2,
4). -/
def Obligations.SensorInfoResponsesRoundTrip : Prop :=
  ∀ (serial cal mfg : List Byte) (type : DWord), serial.length = 32 → cal.length = 16 → mfg.length = 16 →
    decode mps (mps.catalog .sensorInfo)
        (encodeIntoResponse mps 0x43 0x00 (serial ++ dwordBytes type ++ cal ++ mfg)) =
      .ok (.decoded [("CommandId", .text "SENSOR_INFO"), ("Status", .enum (.status .ok)),
        ("SERIAL_NUM", .str (stripNul serial)), ("SENSOR_TYPE", .u32 type), ("CAL_DATE", .str (stripNul cal)),
        ("MFG_DATE", .str (stripNul mfg))])

/-- R145 on R129's synthetic responses: exactly the trailing bytes come back, whatever their number. The
embedded length is laid out little-endian (R41; log entry 6). The identifier and status byte 0x00 as OK are PRESUMED
(log entries 1, 2). For a payload above 65535 bytes the length field of the synthetic header is the model's DESIGN CHOICE
(log entry 29); no rule reads it (R76). -/
def Obligations.EngDataResponsesRoundTrip : Prop :=
  ∀ data : List Byte, data.length < 2 ^ 32 →
    decode mps (mps.catalog .engData)
        (encodeIntoResponse mps 0x09 0x00 (dwordBytes (BitVec.ofNat 32 data.length) ++ data)) =
      .ok (.decoded [("CommandId", .text "ENG_DATA"), ("Status", .enum (.status .ok)),
        ("LENGTH", .u32 (BitVec.ofNat 32 data.length)), ("DATA", .bytes data)])

/-- R158: `cycle_update` answers the first payload value of a valid OK response to ANSWER, and nothing else. That this
value is the cycle count is PRESUMED (log entry 4). -/
def Obligations.CycleUpdateComesFromAnswerAlone : Prop :=
  ∀ (c : Command) (raw : List Byte) (r : Result) (v : DWord), decode mps (mps.catalog c) raw = .ok r →
    (cycleUpdate (mps.catalog c) r = some v ↔
      c = .answer ∧ validateResponse mps raw (mps.catalog c).id = .ok true ∧
        memRead8 raw 1 = some (mps.statusCode .ok) ∧ memRead32 raw 6 = some v)

/-! ### ISSUE -/

/-- R181, R126, R142 to R152: in a quiescent unit each of the eleven commands that expect a response has its frame sent
and opens an exchange; every field is given. Identifiers and checksums are at their PRESUMED defaults (log entries 1, 5),
and events are a list (log entry 14). -/
def Obligations.ResponseCommandsOpenAnExchange : Prop :=
  ∀ s : State, quiescent s →
    ∀ row ∈ ([(.answer, 0x0001, 34, [0x01, 0, 0, 0, 0, 0, 0xED, 0x76]),
        (.conc, 0x0003, 10, [0x03, 0, 0, 0, 0, 0, 0x4B, 0xF9]),
        (.ident, 0x0004, 10, [0x04, 0, 0, 0, 0, 0, 0x53, 0x3E]),
        (.engData, 0x0009, 10, [0x09, 0, 0, 0, 0, 0, 0x37, 0x68]),
        (.temp, 0x0021, 10, [0x21, 0, 0, 0, 0, 0, 0x85, 0x0D]),
        (.pres, 0x0022, 10, [0x22, 0, 0, 0, 0, 0, 0xF0, 0xC5]),
        (.relHum, 0x0023, 10, [0x23, 0, 0, 0, 0, 0, 0x23, 0x82]),
        (.absHum, 0x0024, 10, [0x24, 0, 0, 0, 0, 0, 0x3B, 0x45]),
        (.status, 0x0041, 7, [0x41, 0, 0, 0, 0, 0, 0x3D, 0x80]),
        (.version, 0x0042, 14, [0x42, 0, 0, 0, 0, 0, 0x48, 0x48]),
        (.sensorInfo, 0x0043, 74, [0x43, 0, 0, 0, 0, 0, 0x9B, 0x0F])] : List (Instr × Word × Nat × List Byte)),
      exec row.1 s = .next { s with
        txbuf := Memory.writeBytes s.txbuf 0 row.2.2.2, txlen := 8, cmd := row.2.1, rxlen := 0,
        rxExpected := row.2.2.1, result := .none, phase := .await, outputs := s.outputs ++ [.tx row.2.2.2] }

/-- R183, R153, R154: in a quiescent unit MEAS, with any selectors, and SHUTDOWN are over when the frame is sent; every
field is given. Identifiers and checksums are at their PRESUMED defaults (log entries 1, 5), and events are a list (log
entry 14). -/
def Obligations.RequestOnlyCommandsSettleAtOnce : Prop :=
  ∀ s : State, quiescent s →
    (∀ unit mode : Nibble, ∃ ck : Word,
      ck = crc16 mps 0xFFFF [0x61, 0, 1, 0, 0, 0, 0, 0, measByte unit mode] ∧
      exec (.meas unit mode) s = .next { s with
        txbuf := Memory.writeBytes s.txbuf 0 [0x61, 0, 1, 0, 0, 0, loByte ck, hiByte ck, measByte unit mode],
        txlen := 9, cmd := 0x0061, rxlen := 0, rxExpected := 0, result := .sent, phase := .idle,
        outputs := s.outputs ++
          [.tx [0x61, 0, 1, 0, 0, 0, loByte ck, hiByte ck, measByte unit mode], .done .sent] }) ∧
    exec .shutdown s = .next { s with
      txbuf := Memory.writeBytes s.txbuf 0 [0x62, 0, 0, 0, 0, 0, 0x20, 0x33],
      txlen := 8, cmd := 0x0062, rxlen := 0, rxExpected := 0, result := .sent, phase := .idle,
      outputs := s.outputs ++ [.tx [0x62, 0, 0, 0, 0, 0, 0x20, 0x33], .done .sent] }

/-- R181, R208, R21, R55: the frame of every instruction: the checksum register, `rxbuf` and the pending operations are
unchanged, and `txbuf` outside the request frame; and the only fault it raises is Busy, with nothing else changed. -/
def Obligations.InstructionsChangeOnlyTheirExchange : Prop :=
  ∀ (i : Instr) (s t : State), exec i s = .next t →
    t.crc = s.crc ∧ t.rxbuf = s.rxbuf ∧ t.inputs = s.inputs ∧
    (∀ a, (encodeInstr mps i).length ≤ a → Memory.read t.txbuf a = Memory.read s.txbuf a) ∧
    (t.fault = none ∨ t = faulted .busy s)

/-- R188: while an exchange is open, ISSUE of any operands and the checksum operations raise Busy and change nothing
else. -/
def Obligations.AwaitingUnitIsBusy : Prop :=
  ∀ (k : Config) (s : State), s.fault = none → s.phase = .await →
    (∀ i, exec i s = .next (faulted .busy s)) ∧ (∀ i, runInstr k i s = .next (faulted .busy s)) ∧
    (∀ id payload, perform k (.issue id payload) s = .next (faulted .busy s)) ∧
    (∀ seed, perform k (.crcLoad seed) s = .next (faulted .busy s)) ∧
    (∀ b, perform k (.crcByte b) s = .next (faulted .busy s)) ∧
    perform k .crcRead s = .next (faulted .busy s)

/-- R181, R207, R73, R116, for every well-formed configuration (log entry 30): in a quiescent unit an identifier outside the
catalog faults, then a payload of the wrong length does, and any other ISSUE runs the instruction with that command and
that payload; and the meanings that `exec` names are those of the unit of the default configuration. -/
def Obligations.IssueChecksItsOperands : Prop :=
  (∀ (k : Config) (s : State) (id : Word) (payload : List Byte), k.wf = true → quiescent s →
    ((∀ c, (k.catalog c).id ≠ id) → perform k (.issue id payload) s = .next (faulted .unknownCommand s)) ∧
    (∀ c, (k.catalog c).id = id →
      (payload.length ≠ (k.catalog c).reqLen →
        perform k (.issue id payload) s = .next (faulted .badRequestPayload s)) ∧
      (payload.length = (k.catalog c).reqLen →
        ∃ i, instrCommand i = c ∧ instrPayload i = payload ∧ perform k (.issue id payload) s = runInstr k i s))) ∧
  (∀ (i : Instr) (s : State), runInstr mps i s = exec i s)

/-- R182: only ISSUE transmits, and what it transmits is the frame left in the transmit buffer; the events already put
out stay (log entry 14). -/
def Obligations.OnlyIssueTransmits : Prop :=
  ∀ (k : Config) (op : HostOp) (s t : State), s.txbuf.wf = true → perform k op s = .next t →
    ∃ es, t.outputs = s.outputs ++ es ∧
      ∀ frame, .tx frame ∈ es → (∃ id payload, op = .issue id payload) ∧ frame = sentFrame t ∧
        es.countP (fun e => match e with
          | .tx _ => true
          | _ => false) = 1

/-! ### Receiving -/

/-- R184: a byte that neither completes the exchange nor is EngData's tenth is stored and counted, and nothing else
changes. -/
def Obligations.ReceivedByteIsStored : Prop :=
  ∀ (s : State) (b : Byte), s.fault = none → s.phase = .await → s.rxlen < 138 → s.rxlen + 1 ≠ s.rxExpected →
    (s.rxlen + 1 = 10 → ∃ c, c ≠ .engData ∧ s.cmd = (mps.catalog c).id) →
    recv mps [b] s = .next { s with rxbuf := Memory.write s.rxbuf s.rxlen b, rxlen := s.rxlen + 1 }

/-- R184: bytes given while no exchange is open fault, and nothing of them is stored. -/
def Obligations.BytesOutsideAnExchangeFault : Prop :=
  ∀ (k : Config) (s : State) (b : Byte) (bs : List Byte), quiescent s → recv k (b :: bs) s = .next (faulted .unexpectedRx s)

/-- R184: splitting a response over several RECV gives the same outcome as one with all the bytes. -/
def Obligations.SplittingReceptionDoesNotMatter : Prop :=
  ∀ (k : Config) (a b : List Byte) (s t : State), recv k a s = .next t → t.fault = none → recv k (a ++ b) s = recv k b t

/-- R185: at the tenth byte of an EngData response the count is extended, or RxOverflow raised with the byte stored, or
the exchange completes. -/
def Obligations.EngDataExtendsAtTheTenthByte : Prop :=
  ∀ (s : State) (b status : Byte) (len : Nat), s.fault = none → s.phase = .await →
    s.cmd = (mps.catalog .engData).id → s.rxExpected = 10 → s.rxlen = 9 →
    memRead8 (received (pushRx b s)) 1 = some status → memRead (received (pushRx b s)) 6 4 = some len →
    (status = mps.statusCode .ok ∧ 128 < len → recv mps [b] s = .next (faulted .rxOverflow (pushRx b s))) ∧
    (status = mps.statusCode .ok ∧ 0 < len ∧ len ≤ 128 →
      recv mps [b] s = .next { pushRx b s with rxExpected := 10 + len }) ∧
    (status ≠ mps.statusCode .ok ∨ len = 0 → recv mps [b] s = .next (complete mps (pushRx b s)))

/-- R186, R210: the byte that completes an exchange ends it with what decode answers; framing_error is put out exactly
for ABSENT, then one done; a fault of decode leaves the byte stored and the exchange open. -/
def Obligations.LastByteCompletesTheExchange : Prop :=
  ∀ (s : State) (b : Byte) (c : Command), s.fault = none → s.phase = .await → s.rxlen < 138 →
    s.rxlen + 1 = s.rxExpected → s.cmd = (mps.catalog c).id → (c = .engData → s.rxlen + 1 ≠ 10) →
    (∀ r, decode mps (mps.catalog c) (received (pushRx b s)) = .ok r →
      recv mps [b] s = .next { pushRx b s with
        result := r, phase := .idle, rxExpected := 0,
        outputs := s.outputs ++ (if r = .absent then [.framingError, .done .absent] else [.done r]) }) ∧
    (∀ f, decode mps (mps.catalog c) (received (pushRx b s)) = .error f →
      recv mps [b] s = .next (faulted f (pushRx b s)))

/-- R187: IO_ERROR, in either phase, gives every field the rule names and one done (events are a list, log entry 14). -/
def Obligations.IoErrorEndsTheExchange : Prop :=
  ∀ (k : Config) (s : State), s.fault = none →
    perform k .ioError s = .next { s with
      result := .transportError, phase := .idle, rxExpected := 0, rxlen := 0,
      outputs := s.outputs ++ [.done .transportError] }

/-- R190, R129: for every command with a response of fixed length, ISSUE and then the bytes awaited end the exchange
with what the pure decode answers for these bytes; no fault arises, and TX, framing_error for ABSENT, and done are put
out in this order (events are a list, log entry 14). -/
def Obligations.FixedLengthExchangeDeliversDecode : Prop :=
  ∀ (i : Instr) (s : State) (raw : List Byte), quiescent s → s.rxbuf.wf = true →
    (mps.catalog (instrCommand i)).expectsResponse = true → instrCommand i ≠ .engData →
    raw.length = 6 + (mps.catalog (instrCommand i)).respLen →
    ∃ t u r, exec i s = .next t ∧ recv mps raw t = .next u ∧ decode mps (mps.catalog (instrCommand i)) raw = .ok r ∧
      u.result = r ∧ quiescent u ∧ u.rxExpected = 0 ∧ received u = raw ∧ u.crc = s.crc ∧
      u.outputs = s.outputs ++ [.tx (encodeInstr mps i)] ++ (if r = .absent then [.framingError] else []) ++ [.done r]

/-- R190, R185, R145: the same of ENG_DATA, whose response has ten bytes when its status is not OK, and ten and the
embedded length, at most 128, when it is. Events are a list (log entry 14). -/
def Obligations.EngDataExchangeDeliversDecode : Prop :=
  ∀ (s : State) (raw : List Byte) (status : Byte) (len : Nat), quiescent s → s.rxbuf.wf = true →
    memRead8 raw 1 = some status → memRead raw 6 4 = some len →
    (if status = mps.statusCode .ok then len ≤ 128 ∧ raw.length = 10 + len else raw.length = 10) →
    ∃ t u r, exec .engData s = .next t ∧ recv mps raw t = .next u ∧ decode mps (mps.catalog .engData) raw = .ok r ∧
      u.result = r ∧ quiescent u ∧ u.rxExpected = 0 ∧ received u = raw ∧ u.crc = s.crc ∧
      u.outputs = s.outputs ++ [.tx (encodeInstr mps .engData)] ++ (if r = .absent then [.framingError] else []) ++ [.done r]

/-! ### Faults and reset -/

/-- R208: in a faulted unit no instruction and no operation but RESET has a step. -/
def Obligations.FaultedUnitHasNoStep : Prop :=
  ∀ (k : Config) (s : State) (f : UnitFault), s.fault = some f →
    (∀ i, exec i s = .fault (.stuck f)) ∧ (∀ i, runInstr k i s = .fault (.stuck f)) ∧
    (∀ op, op ≠ .reset → perform k op s = .fault (.stuck f))

/-- R208: an operation other than RECV that raises a fault changes nothing else. -/
def Obligations.FaultingOperationsChangeNothingElse : Prop :=
  ∀ (k : Config) (op : HostOp) (s t : State) (f : UnitFault), (∀ bytes, op ≠ .recv bytes) → perform k op s = .next t →
    t.fault = some f → t = faulted f s

/-- R209: a faulted unit takes a step only when RESET is pending, and that step leaves it unfaulted and in IDLE. That a
pending RESET is reached past operations that have no step is the model's reading (log entry 16). -/
def Obligations.OnlyResetLeavesAFault : Prop :=
  ∀ (s : State) (f : UnitFault), s.fault = some f →
    (.reset ∉ s.inputs → step s = .fault (.stuck f)) ∧
    (∀ rest ops, s.inputs = ops ++ .reset :: rest → .reset ∉ ops →
      ∃ t, step s = .next t ∧ quiescent t ∧ t.inputs = rest ∧ t.outputs = s.outputs)

/-- R230: RESET, accepted in every state, gives the stated values, puts nothing out, and leaves the checksum register
without a value (what it leaves in `cmd` and the buffers is the model's choice, log entry 12); the state a run begins with has the same values. -/
def Obligations.ResetGivesTheStatedValues : Prop :=
  (∀ (k : Config) (s : State), ∃ t, perform k .reset s = .next t ∧ t.phase = .idle ∧ t.txlen = 0 ∧ t.rxlen = 0 ∧ t.rxExpected = 0 ∧
    t.result = .none ∧ t.fault = none ∧ t.crc = none ∧ t.outputs = s.outputs) ∧
  (State.reset.phase = .idle ∧ State.reset.txlen = 0 ∧ State.reset.rxlen = 0 ∧ State.reset.rxExpected = 0 ∧
    State.reset.result = .none ∧ State.reset.fault = none ∧ State.reset.crc = none)

/-! ### Steps and whole-machine rules -/

/-- R180, R181: when the next operation is an ISSUE whose operands decode to an instruction, the step is that
instruction, the operation being taken from the pending ones (log entry 13); and every instruction is what its own ISSUE
decodes to. -/
def Obligations.StepRunsTheDecodedInstruction : Prop :=
  (∀ (s : State) (id : Word) (payload : List Byte) (rest : List HostOp) (i : Instr), s.fault = none →
    s.inputs = .issue id payload :: rest → decodeRequest mps id payload = .ok i → step s = exec i { s with inputs := rest }) ∧
  (∀ i : Instr, decodeRequest mps (mps.catalog (instrCommand i)).id (instrPayload i) = .ok i)

/-- R180: an unfaulted unit performs the next operation, and without one it waits, unchanged (log entries 13, 15). -/
def Obligations.StepPerformsTheNextOperation : Prop :=
  ∀ s : State, s.fault = none →
    (∀ op rest, s.inputs = op :: rest → step s = perform mps op { s with inputs := rest }) ∧
    (s.inputs = [] → step s = .next s)

/-- R78: the request frame of an instruction, placed as a table word, is what the decoder reads and what the next step of
an unfaulted unit runs (log entries 13, 21). -/
def Obligations.PlacedRequestRunsItsInstruction : Prop :=
  ∀ (i : Instr) (s : State), s.fault = none →
    decodeTableWord (8 * (encodeInstr mps i).length) (leNat (encodeInstr mps i)) = some i ∧
    step (s.withFetchWord (8 * (encodeInstr mps i).length) (leNat (encodeInstr mps i))) = exec i s

/-- R189: only RECV, IO_ERROR and RESET end a wait. -/
def Obligations.OnlyTheHostEndsAWait : Prop :=
  ∀ (k : Config) (op : HostOp) (s t : State), s.phase = .await → perform k op s = .next t → t.phase = .idle →
    op = .ioError ∨ op = .reset ∨ ∃ bytes, op = .recv bytes

/-- R239, derived in the spec: in IDLE the result changes by ISSUE, IO_ERROR and RESET alone. -/
def Obligations.ResultIsStableUntilTheNextIssue : Prop :=
  ∀ (k : Config) (op : HostOp) (s t : State), s.phase = .idle → perform k op s = .next t → (∀ id payload, op ≠ .issue id payload) →
    op ≠ .ioError → op ≠ .reset → t.result = s.result

/-- R20, R22, R23, R26, R27, R54, R184: every step keeps the invariant: buffers canonical and within capacity, the
transmit buffer holding the frame of the command in `cmd`, fewer bytes received than awaited while an exchange is open,
results well shaped. -/
def Obligations.EveryStepKeepsTheInvariant : Prop :=
  ∀ s t : State, unitInvariant mps s → step s = .next t → unitInvariant mps t

/-- R37: the state after reset meets the invariant of the unit of every configuration. That its buffers list nothing is the model's choice (log entry 11). -/
def Obligations.ResetMeetsTheInvariant : Prop := ∀ k : Config, unitInvariant k State.reset

/-- R212, R54, R185, R243: from a state that meets the invariant, an operation the host's contract allows always completes,
in a state that meets it too, and the only fault it can raise is the RxOverflow of an EngData length above 128. -/
def Obligations.HostContractAvoidsFaults : Prop :=
  ∀ (s : State) (op : HostOp), unitInvariant mps s → s.fault = none → hostAllowed mps s op →
    ∃ t, perform mps op s = .next t ∧ unitInvariant mps t ∧
      (t.fault = none ∨ (t.fault = some .rxOverflow ∧ t.cmd = (mps.catalog .engData).id ∧
        ∃ len, memRead (received t) 6 4 = some len ∧ 128 < len))

/-- R33, R66, R108: the unit of every well-formed configuration keeps its invariant, whatever its identifiers, fields, codes,
capacities and checksum parameters. What well formed says beyond R108 is the model's choice (log entry 30). -/
def Obligations.EveryConfigurationKeepsItsInvariant : Prop :=
  ∀ (k : Config) (s t : State), k.wf = true → unitInvariant k s → takeStep k s = .next t → unitInvariant k t
end

