-- ==== Sys2Proof/Laws/Catalog.lean ====
section
/-! SUPPORT. The catalog of a well-formed configuration: its columns are the spec's, its identifiers are distinct, and
lookup finds every descriptor. The facts of the default configuration `mps` are instances. -/

namespace Sys2Proof.Machine

/-- The list of commands holds every command. -/
theorem Command.mem_all (c : Command) : c ∈ Command.all := by cases c <;> decide

/-! ### What a well-formed configuration says -/

/-- The tests of `Config.wf`, one by one. -/
theorem wf_parts {k : Config} (h : k.wf = true) :
    k.idsDistinct = true ∧ k.idsFitEcho = true ∧ k.namesDistinct = true ∧ k.framesFit = true ∧
      k.columnsGiven = true ∧ k.polyOdd = true := by
  simp only [Config.wf, Config.catalogWf, Bool.and_eq_true] at h
  exact ⟨h.1.1.1.1.1.1.1.1.1, h.1.1.1.1.1.1.1.1.2, h.1.1.1.1.1.1.1.2, h.1.1.1.1.2, h.1.1.1.2, h.2⟩

/-- A descriptor has the given columns, whatever its identifier and fields (spec/41_command_catalog.md R106). -/
theorem catalog_columns {k : Config} (h : k.wf = true) (c : Command) :
    k.catalog c = { descriptor c with id := (k.catalog c).id, fields := (k.catalog c).fields } := by
  have := (wf_parts h).2.2.2.2.1
  simp only [Config.columnsGiven, List.all_eq_true, beq_iff_eq] at this
  exact this c (Command.mem_all c)

/-- The request length is the given one (R106). -/
theorem catalog_reqLen {k : Config} (h : k.wf = true) (c : Command) : (k.catalog c).reqLen = requestLength c := by
  rw [catalog_columns h]; rfl

/-- Which commands are answered is the given column (R110). -/
theorem catalog_expects {k : Config} (h : k.wf = true) (c : Command) : (k.catalog c).expectsResponse = answered c := by
  rw [catalog_columns h]; rfl

/-- The strategy is the given one (R106). -/
theorem catalog_strategy {k : Config} (h : k.wf = true) (c : Command) : (k.catalog c).strategy = payloadStrategy c := by
  rw [catalog_columns h]; rfl

/-- ENG_DATA alone has its strategy (R106). -/
theorem strategy_engData {k : Config} (h : k.wf = true) (c : Command) :
    (k.catalog c).strategy = .engData ↔ c = .engData := by
  rw [catalog_strategy h]
  cases c <;> decide

/-- Two commands with one identifier are one (R108 condition 1). -/
theorem command_eq_of_id {k : Config} (h : k.wf = true) {c c' : Command} (hid : (k.catalog c).id = (k.catalog c').id) :
    c = c' := by
  have hd := (wf_parts h).1
  simp only [Config.idsDistinct, decide_eq_true_eq] at hd
  exact List.inj_on_of_nodup_map hd (Command.mem_all c) (Command.mem_all c') hid

/-- The echo of an identifier names its command too: every identifier is below 256 (R108 condition 2). -/
theorem echo_id {k : Config} (h : k.wf = true) (c : Command) :
    ((k.catalog c).id.setWidth 8).setWidth 16 = (k.catalog c).id := by
  have hf := (wf_parts h).2.1
  simp only [Config.idsFitEcho, List.all_eq_true, decide_eq_true_eq] at hf
  have := hf c (Command.mem_all c)
  apply BitVec.eq_of_toNat_eq
  simp
  omega

/-- Field names are distinct, and none is a header field's (R108 condition 3). -/
theorem fieldNames_nodup {k : Config} (h : k.wf = true) (c : Command) :
    ("CommandId" :: "Status" :: (k.catalog c).fields.map Prod.fst).Nodup := by
  have hn := (wf_parts h).2.2.1
  simp only [Config.namesDistinct, Bool.and_eq_true, List.all_eq_true, decide_eq_true_eq] at hn
  exact hn.2 c (Command.mem_all c)

/-- Every frame fits its buffer (R108 condition 6). -/
theorem frames_fit {k : Config} (h : k.wf = true) (c : Command) :
    reqHdr + (k.catalog c).reqLen ≤ k.txCap ∧ respHdr + (k.catalog c).respLen ≤ k.rxCap ∧
      respHdr + 4 + k.engDataMaxL ≤ k.rxCap := by
  have hf := (wf_parts h).2.2.2.1
  simp only [Config.framesFit, Bool.and_eq_true, List.all_eq_true, decide_eq_true_eq] at hf
  exact ⟨(hf.1 c (Command.mem_all c)).1, (hf.1 c (Command.mem_all c)).2, hf.2⟩

/-! ### Lookup (spec/41_command_catalog.md R107) -/

/-- Only an identifier of the catalog names a command. -/
theorem commandOf_some {k : Config} {id : Word} {c : Command} (h : commandOf k id = some c) : (k.catalog c).id = id := by
  simpa using List.find?_some h

/-- Every identifier of a well-formed catalog names its command. -/
theorem commandOf_wf {k : Config} (h : k.wf = true) (c : Command) : commandOf k (k.catalog c).id = some c := by
  cases hc : commandOf k (k.catalog c).id with
  | some c' => rw [command_eq_of_id h (commandOf_some hc)]
  | none => simpa using List.find?_eq_none.mp hc c (Command.mem_all c)

/-- Lookup of a catalog identifier gives its descriptor. -/
theorem lookup_wf {k : Config} (h : k.wf = true) (c : Command) : lookup k (k.catalog c).id = .ok (k.catalog c) := by
  simp [lookup, commandOf_wf h]

/-- Lookup gives a descriptor of the catalog. -/
theorem lookup_ok {k : Config} {id : Word} {d : Descriptor} (h : lookup k id = .ok d) :
    ∃ c, (k.catalog c).id = id ∧ d = k.catalog c := by
  unfold lookup at h
  split at h
  · next c hc => cases h; exact ⟨c, commandOf_some hc, rfl⟩
  · cases h

/-! ### The default configuration -/

/-- The catalog and the parameters are well formed (R108). -/
theorem mps_wf : mps.wf = true := by decide

/-- The selector an odd distance away is another one. -/
theorem otherSelector_ne : ∀ (base : Nibble) (gap : Fin 15), base ≠ Config.otherSelector base gap := by decide

/-- The free selectors are distinct (spec/30_encoding.md R70). -/
theorem mps_selectorsDistinct : mps.selectorsDistinct := ⟨otherSelector_ne _ _, otherSelector_ne _ _⟩

@[simp] theorem commandOf_id (c : Command) : commandOf mps (mps.catalog c).id = some c := commandOf_wf mps_wf c

@[simp] theorem lookup_id (c : Command) : lookup mps (mps.catalog c).id = .ok (mps.catalog c) := lookup_wf mps_wf c

/-- The `match` column of spec/opcode_table.json, in its order. -/
theorem opcodeMatch_default :
    Command.all.map (opcodeMatch mps) =
      [0x000000000001, 0x000000000003, 0x000000000004, 0x000000000009, 0x000000000021, 0x000000000022, 0x000000000023,
        0x000000000024, 0x000000000041, 0x000000000042, 0x000000000043, 0x000000010061, 0x000000000062] := by
  decide

end Sys2Proof.Machine
end

