-- ==== Sys2Proof/Machine/Build.lean ====
section
/-! DEFINITION. Building a unit from a configuration (spec/00_scope.md R6, spec/10_state.md R33). -/

namespace Sys2Proof.Machine

/-- The unit of a configuration: its states, its step, and the state after reset. -/
def unitOf (k : Config) : Host.Core where
  State := State
  Fault := Fault
  Refusal := Refusal
  step := takeStep k
  reset := State.reset

/-- Build a unit. A configuration that is not well formed is refused (spec/41_command_catalog.md R108; log entry 30). -/
def buildUnit (k : Config) : Option Host.Core := if k.wf then some (unitOf k) else none

end Sys2Proof.Machine
end

