-- ==== Sys2Proof/Laws/Build.lean ====
section
/-! SUPPORT. Building a unit: of a well-formed configuration alone, and of the defaults the machine the host runs. -/

namespace Sys2Proof.Machine

/-- A unit is built exactly of a well-formed configuration (spec/41_command_catalog.md R108). -/
theorem buildUnit_eq_some {k : Config} {u : Host.Core} : buildUnit k = some u ↔ k.wf = true ∧ unitOf k = u := by
  unfold buildUnit
  split <;> simp_all

/-- The machine the host runs is the unit built of the spec's defaults. -/
theorem buildUnit_mps : buildUnit mps = some Sys2Proof.core := buildUnit_eq_some.mpr ⟨mps_wf, rfl⟩

end Sys2Proof.Machine
end

