-- ==== Sys2Proof/Laws/Codec.lean ====
section
/-! SUPPORT. The response codec, opened once: reads of a longer buffer, which fields a decoder names, when it has a
value, and what `decode` can answer. -/

namespace Sys2Proof.Machine

/-! ### Reads -/

/-- Bytes after a read do not change it. -/
theorem memRead_append {A B : List Byte} {o n v : Nat} (h : memRead A o n = some v) : memRead (A ++ B) o n = some v := by
  simp only [memRead, subseq] at h ⊢
  split at h
  · rw [if_pos (by simp; omega), List.drop_append_of_le_length (by omega), List.take_append_of_le_length (by simp; omega)]
    exact h
  · simp at h

theorem memRead8_append {A B : List Byte} {o : Nat} {v : Byte} (h : memRead8 A o = some v) :
    memRead8 (A ++ B) o = some v := by
  simp only [memRead8, Option.map_eq_some_iff] at h ⊢
  obtain ⟨n, hn, rfl⟩ := h
  exact ⟨n, memRead_append hn, rfl⟩

/-- A read within a front part is a read of the whole. -/
theorem memRead_take {A : List Byte} {o n k : Nat} (h : o + k ≤ n) (hn : n ≤ A.length) :
    memRead (A.take n) o k = memRead A o k := by
  simp only [memRead, subseq, List.length_take]
  rw [if_pos (by omega), if_pos (by omega)]
  congr 2
  rw [List.drop_take, List.take_take]
  congr 1
  omega

/-- A read within the length has a value (spec/20_memory.md R42). -/
theorem memRead_of_le {A : List Byte} {o n : Nat} (h : o + n ≤ A.length) : ∃ v, memRead A o n = some v := by
  simp [memRead, subseq, h]

theorem memRead8_of_le {A : List Byte} {o : Nat} (h : o + 1 ≤ A.length) : ∃ v, memRead8 A o = some v := by
  obtain ⟨v, hv⟩ := memRead_of_le h
  simp [memRead8, hv]

theorem memRead32_of_le {A : List Byte} {o : Nat} (h : o + 4 ≤ A.length) : ∃ v, memRead32 A o = some v := by
  obtain ⟨v, hv⟩ := memRead_of_le h
  simp [memRead32, hv]

/-! ### Fields -/

/-- The values carry the descriptor's field names, in order (spec/42_frame_codec.md R123). -/
theorem fieldValues_names {raw : List Byte} : ∀ {fs : List (String × FieldType)} {o : Nat} {vs : Fields},
    fieldValues raw o fs = some vs → vs.map Prod.fst = fs.map Prod.fst
  | [], _, _, h => by cases h; rfl
  | (n, ty) :: fs, o, vs, h => by
    unfold fieldValues at h
    split at h
    · next v ws _ h2 => cases h; simp [fieldValues_names h2]
    · cases h

theorem genericValue_of_le {ty : FieldType} {raw : List Byte} {o : Nat} (h : o + ty.width ≤ raw.length)
    (hne : ty ≠ .dataL) : ∃ v, genericValue ty raw o = some v := by
  cases ty <;> simp only [FieldType.width] at h <;> simp only [genericValue]
  · obtain ⟨v, hv⟩ := memRead8_of_le h; simp [hv]
  · obtain ⟨v, hv⟩ := memRead_of_le h; simp [memRead16, hv]
  · obtain ⟨v, hv⟩ := memRead32_of_le h; simp [hv]
  · obtain ⟨v, hv⟩ := memRead32_of_le h; simp [hv]
  · simp [subseq, h]
  · simp [subseq, h]
  · exact absurd rfl hne

/-- Fields that fit the buffer all have values. -/
theorem fieldValues_of_le {raw : List Byte} : ∀ (fs : List (String × FieldType)) (o : Nat), (∀ f ∈ fs, f.2 ≠ .dataL) →
    o + (fs.map fun f => f.2.width).sum ≤ raw.length → ∃ vs, fieldValues raw o fs = some vs
  | [], _, _, _ => ⟨[], rfl⟩
  | (n, ty) :: fs, o, hne, h => by
    simp only [List.map_cons, List.sum_cons] at h
    obtain ⟨v, hv⟩ := genericValue_of_le (ty := ty) (raw := raw) (o := o) (by omega) (hne (n, ty) (by simp))
    obtain ⟨vs, hvs⟩ := fieldValues_of_le (raw := raw) fs (o + ty.width) (fun f hf => hne f (List.mem_cons_of_mem _ hf))
      (by omega)
    exact ⟨(n, v) :: vs, by simp [fieldValues, hv, hvs]⟩

/-- A decoder that answers had the header (spec/42_frame_codec.md R120). -/
theorem needHeader_ok {α : Type} {raw : List Byte} {r : Except UnitFault α} {v : α} (h : needHeader raw r = .ok v) :
    respHdr ≤ raw.length ∧ r = .ok v := by
  unfold needHeader at h
  split at h
  · cases h
  · exact ⟨by omega, h⟩

theorem needHeader_of_le {α : Type} {raw : List Byte} (h : respHdr ≤ raw.length) (r : Except UnitFault α) :
    needHeader raw r = r := if_neg (by omega)

theorem needHeader_of_lt {α : Type} {raw : List Byte} (h : raw.length < respHdr) (r : Except UnitFault α) :
    needHeader raw r = .error .shortBuffer := if_pos h

/-- `decode_fields` answers the two header fields, then the descriptor's names. -/
theorem decodeFields_shape {k : Config} {d : Descriptor} {raw : List Byte} {fs : Fields}
    (h : decodeFields k raw d = .ok fs) :
    raw.length = respHdr + d.respLen ∧ ∃ status vs, memRead8 raw 1 = some status ∧
      fieldValues raw respHdr d.fields = some vs ∧ fs = headerFields k d status ++ vs := by
  replace h := (needHeader_ok h).2
  split at h
  · next hl =>
    split at h
    · next s vs h1 h2 => cases h; exact ⟨hl, s, vs, h1, h2, rfl⟩
    · cases h
  · cases h

/-- Replacing a value keeps the names. -/
theorem reinterpret_names (name : String) (g : Value → Value) (fs : Fields) :
    (reinterpret name g fs).map Prod.fst = fs.map Prod.fst := by
  simp only [reinterpret, List.map_map]
  congr 1
  funext nv
  simp only [Function.comp_apply]
  split <;> rfl

/-! ### Validation and decode -/

/-- What a valid response says: six bytes at least, the echo of the command sent, its own checksum (R117). -/
theorem validateResponse_true {k : Config} {raw : List Byte} {id : Word} (h : validateResponse k raw id = .ok true) :
    6 ≤ raw.length ∧ ∃ echo ck, memRead8 raw 0 = some echo ∧ memRead16 raw 4 = some ck ∧ echo.setWidth 16 = id ∧
      responseChecksum k raw = ck := by
  unfold validateResponse at h
  split at h
  · next echo ck h1 h2 =>
    have hv : echo.setWidth 16 = id ∧ responseChecksum k raw = ck := by simpa [echoOk] using h
    refine ⟨?_, echo, ck, h1, h2, hv⟩
    by_contra hl
    simp [memRead16, memRead, subseq, show ¬ 6 ≤ raw.length from hl] at h2
  · cases h

/-- What `decode_status_only` answers: the echo's command and the status (R121). -/
theorem decodeStatusOnly_ok {k : Config} {raw : List Byte} {r : Result} (h : decodeStatusOnly k raw = .ok r) :
    ∃ echo status d, memRead8 raw 0 = some echo ∧ memRead8 raw 1 = some status ∧ lookup k (echo.setWidth 16) = .ok d ∧
      r = .decoded (headerFields k d status) := by
  unfold decodeStatusOnly at h
  split at h
  · next echo status _ h0 h1 _ =>
    split at h
    · next d hd => cases h; exact ⟨echo, status, d, h0, h1, hd, rfl⟩
    · cases h
  · cases h

/-- What `decode` answers where it has a result: absent, the status alone, or the payload decoder's fields
(spec/43_command_variants.md R141). -/
theorem decode_ok {k : Config} {d : Descriptor} {raw : List Byte} {r : Result} (h : decode k d raw = .ok r) :
    d.expectsResponse = true ∧
    ((validateResponse k raw d.id = .ok false ∧ r = .absent) ∨
      ∃ status, validateResponse k raw d.id = .ok true ∧ memRead8 raw 1 = some status ∧
        ((statusOk k status = false ∧ decodeStatusOnly k raw = .ok r) ∨
          (statusOk k status = true ∧ ∃ fs, payloadDecode k d raw = .ok fs ∧ r = .decoded fs))) := by
  unfold decode at h
  split at h
  · next he =>
    refine ⟨he, ?_⟩
    split at h
    · next status hv hs =>
      refine .inr ⟨status, hv, hs, ?_⟩
      split at h
      · next hok =>
        cases hp : payloadDecode k d raw with
        | error f => simp [hp, Except.map] at h
        | ok fs => simp only [hp, Except.map, Except.ok.injEq] at h; exact .inr ⟨hok, fs, rfl, h.symm⟩
      · next hok => exact .inl ⟨by simpa using hok, h⟩
    · next hv => cases h; exact .inl ⟨hv, rfl⟩
    · cases h
    · cases h
  · cases h

/-- The label of a status is OK exactly when the status gate opens (spec/42_frame_codec.md R122): OK is the first label
tried. -/
theorem statusLabel_eq_ok (k : Config) (status : Byte) :
    statusLabel k status = .status .ok ↔ statusOk k status = true := by
  unfold statusLabel statusOk
  constructor
  · intro h
    split at h
    · next l hl =>
      cases h
      have := List.find?_some hl
      simp only [beq_iff_eq] at this ⊢
      exact this.symm
    · cases h
  · intro h
    have : k.statusCode .ok = status := by simpa using (beq_iff_eq.mp h).symm
    simp [StatusLabel.all, this]

end Sys2Proof.Machine
end

