-- ==== Sys2Proof/Laws/Encode.lean ====
section
/-! SUPPORT. The request frame of an instruction, opened once: six fixed header bytes, the checksum, the payload. The
checksum stays folded (`requestChecksum`), so that no proof evaluates it by accident. -/

namespace Sys2Proof.Machine

/-- The payload of an instruction has its command's length (spec/30_encoding.md R63). -/
theorem instrPayload_length (i : Instr) : (instrPayload i).length = requestLength (instrCommand i) := by
  cases i <;> rfl

/-- No payload is longer than one byte (spec/30_encoding.md R67). -/
theorem instrPayload_le (i : Instr) : (instrPayload i).length ≤ 1 := by
  cases i <;> simp [instrPayload]

/-- The same against the catalog of a well-formed configuration. -/
theorem instrPayload_reqLen {k : Config} (h : k.wf = true) (i : Instr) :
    (instrPayload i).length = (k.catalog (instrCommand i)).reqLen := by
  rw [catalog_reqLen h, instrPayload_length]

@[simp] theorem requestHead_length (k : Config) (i : Instr) : (requestHead k i).length = 6 := rfl

/-- The frame with its six header bytes written out (spec/30_encoding.md R61). -/
theorem encodeInstr_eq (k : Config) (i : Instr) :
    encodeInstr k i = [loByte (k.catalog (instrCommand i)).id, hiByte (k.catalog (instrCommand i)).id,
      BitVec.ofNat 8 (instrPayload i).length, 0, 0, 0, loByte (requestChecksum k i), hiByte (requestChecksum k i)] ++
      instrPayload i := rfl

@[simp] theorem encodeInstr_length (k : Config) (i : Instr) :
    (encodeInstr k i).length = 8 + (instrPayload i).length := by
  simp [encodeInstr]; omega

/-- The machine's request image of an instruction (spec/42_frame_codec.md R115) is the table's header with a zero
checksum and the payload. -/
theorem requestImage_eq (k : Config) (i : Instr) :
    requestImage (k.catalog (instrCommand i)).id (instrPayload i) = requestHead k i ++ [0, 0] ++ instrPayload i := by
  cases i <;> simp [requestImage, requestHead, instrPayload] <;> decide

/-- MEAS's payload byte gives its selectors back (spec/30_encoding.md R70). -/
theorem measUnit_measByte : ∀ u m : Nibble, measUnit (measByte u m) = u := by decide

theorem measMode_measByte : ∀ u m : Nibble, measMode (measByte u m) = m := by decide

end Sys2Proof.Machine
end

