-- ==== Sys2Proof/Laws/Decode.lean ====
section
/-! SUPPORT. The request decoder, opened once: the header fields of a frame against a row of the opcode table, and the
bytes of a table word. -/

namespace Sys2Proof.Machine

/-! ### The fields of a frame of at least eight bytes -/

theorem memRead16_id (b0 b1 : Byte) (tl : List Byte) :
    memRead16 (b0 :: b1 :: tl) 0 = some (BitVec.ofNat 16 (b0.toNat + 256 * b1.toNat)) := by
  simp [memRead16, memRead, subseq, leNat]

theorem memRead_len (b0 b1 b2 b3 : Byte) (tl : List Byte) :
    memRead (b0 :: b1 :: b2 :: b3 :: tl) 2 2 = some (b2.toNat + 256 * b3.toNat) := by
  simp [memRead, subseq, leNat]

theorem memRead16_reserved (b0 b1 b2 b3 b4 b5 : Byte) (tl : List Byte) :
    memRead16 (b0 :: b1 :: b2 :: b3 :: b4 :: b5 :: tl) 4 = some (BitVec.ofNat 16 (b4.toNat + 256 * b5.toNat)) := by
  simp [memRead16, memRead, subseq, leNat]

/-- A header is a number exactly when its three fields are that number's (spec/30_encoding.md R78). -/
theorem headerBits_eq_iff (b0 b1 b2 b3 b4 b5 : Byte) (tl : List Byte) (m : BitVec 48) :
    headerBits (b0 :: b1 :: b2 :: b3 :: b4 :: b5 :: tl) = m ↔
      BitVec.ofNat 16 (b0.toNat + 256 * b1.toNat) = m.extractLsb' 0 16 ∧
      BitVec.ofNat 16 (b2.toNat + 256 * b3.toNat) = m.extractLsb' 16 16 ∧
      BitVec.ofNat 16 (b4.toNat + 256 * b5.toNat) = m.extractLsb' 32 16 := by
  have := b0.isLt
  have := b1.isLt
  have := b2.isLt
  have := b3.isLt
  have := b4.isLt
  have := b5.isLt
  have := m.isLt
  simp [headerBits, leNat, ← BitVec.toNat_inj, Nat.shiftRight_eq_div_pow]
  omega

/-! ### Rows of the opcode table -/

/-- The three fields of a row's match: identifier, request length and zero (spec/30_encoding.md R61, R78). -/
theorem opcodeMatch_fields (k : Config) (c : Command) :
    (opcodeMatch k c).extractLsb' 0 16 = (k.catalog c).id ∧
    (opcodeMatch k c).extractLsb' 16 16 = BitVec.ofNat 16 (k.catalog c).reqLen ∧
    (opcodeMatch k c).extractLsb' 32 16 = 0 := by
  unfold opcodeMatch
  refine ⟨?_, ?_, ?_⟩ <;> ext i hi <;> rw [BitVec.getElem_extractLsb', BitVec.getLsbD_append]
  · rw [if_pos (by omega)]; simp [BitVec.getLsbD_eq_getElem hi]
  · rw [if_neg (by omega), BitVec.getLsbD_append, if_pos (by omega)]; simp [BitVec.getLsbD_eq_getElem hi]
  · rw [if_neg (by omega), BitVec.getLsbD_append, if_neg (by omega)]; simp

/-- No two rows of a well-formed catalog match one header. -/
theorem opcodeMatch_injective {k : Config} (h : k.wf = true) {c c' : Command} (hm : opcodeMatch k c = opcodeMatch k c') :
    c = c' := by
  apply command_eq_of_id h
  rw [← (opcodeMatch_fields k c).1, ← (opcodeMatch_fields k c').1, hm]

/-- A header meets a row exactly when it is the row's match. -/
theorem matchRow_eq_some {k : Config} (hk : k.wf = true) {h : BitVec 48} {c : Command} :
    matchRow k h = some c ↔ h = opcodeMatch k c := by
  have hmask : h &&& opcodeMask = h := by
    rw [show opcodeMask = BitVec.allOnes 48 from rfl, BitVec.and_allOnes]
  constructor
  · intro hc
    have := List.find?_some hc
    rw [hmask] at this
    simpa using this
  · intro hc
    cases hm : matchRow k h with
    | some c' =>
      have := List.find?_some hm
      rw [hmask] at this
      simp only [beq_iff_eq] at this
      rw [opcodeMatch_injective hk (this.symm.trans hc)]
    | none =>
      have := List.find?_eq_none.mp hm c (Command.mem_all c)
      rw [hmask] at this
      simp [hc] at this

theorem matchRow_eq_none {k : Config} (hk : k.wf = true) {h : BitVec 48} :
    matchRow k h = none ↔ ∀ c, h ≠ opcodeMatch k c := by
  constructor
  · intro hn c hc
    rw [(matchRow_eq_some hk).mpr hc] at hn
    cases hn
  · intro hn
    cases hm : matchRow k h with
    | none => rfl
    | some c => exact absurd ((matchRow_eq_some hk).mp hm) (hn c)

/-- The header of an instruction's frame meets its own row. -/
theorem matchRow_requestHead {k : Config} (hk : k.wf = true) (i : Instr) (tl : List Byte) :
    matchRow k (headerBits (requestHead k i ++ tl)) = some (instrCommand i) := by
  obtain ⟨h1, h2, h3⟩ := opcodeMatch_fields k (instrCommand i)
  rw [matchRow_eq_some hk, requestHead, List.cons_append, List.cons_append, List.cons_append, List.cons_append,
    List.cons_append, List.cons_append, headerBits_eq_iff, h1, h2, h3, ← instrPayload_reqLen hk]
  have hp := instrPayload_le i
  have := (k.catalog (instrCommand i)).id.isLt
  refine ⟨?_, ?_, rfl⟩ <;> apply BitVec.eq_of_toNat_eq <;> simp [loByte, hiByte] <;> omega

/-- Every payload byte of MEAS is that of its two selectors (spec/30_encoding.md R70). -/
theorem measByte_selectors : ∀ p : Byte, p = measByte (measUnit p) (measMode p) := by decide

/-! ### Table words -/

theorem leNat_lt (bs : List Byte) : leNat bs < 2 ^ (8 * bs.length) := by
  induction bs with
  | nil => simp [leNat]
  | cons b bs ih =>
    have := b.isLt
    simp [leNat, Nat.mul_add, Nat.pow_add]
    omega

/-- The bytes of the number of a byte sequence are that sequence, then zeros. -/
theorem leBytes_leNat (bs : List Byte) (n : Nat) :
    leBytes (bs.length + n) (leNat bs) = bs ++ List.replicate n 0 := by
  induction bs with
  | nil =>
    simp only [List.length_nil, Nat.zero_add, leNat, List.nil_append]
    induction n with
    | zero => rfl
    | succ n ih => simp [leBytes, ih, List.replicate_succ]
  | cons b bs ih =>
    have := b.isLt
    have h1 : leNat (b :: bs) / 256 = leNat bs := by simp [leNat]; omega
    have h2 : BitVec.ofNat 8 (leNat (b :: bs)) = b := by
      apply BitVec.eq_of_toNat_eq
      simp [leNat]
      omega
    rw [List.length_cons, show bs.length + 1 + n = bs.length + n + 1 by omega, leBytes, h1, h2, ih]
    rfl

end Sys2Proof.Machine
end

