-- ==== Sys2Proof/Laws/Memory.lean ====
section
/-! SUPPORT. The laws of the byte buffers: what a read gives after a write, and that every operation keeps the canonical
form and the capacity. -/

namespace Sys2Proof.Machine

theorem Memory.wfFrom_mono {lo lo' : Nat} (h : lo' ≤ lo) : ∀ {m : Memory}, Memory.wfFrom lo m = true →
    Memory.wfFrom lo' m = true
  | [], _ => rfl
  | (x, v) :: m, hm => by
    simp only [Memory.wfFrom, Bool.and_eq_true, decide_eq_true_eq] at hm ⊢
    exact ⟨⟨le_trans h hm.1.1, hm.1.2⟩, hm.2⟩

/-- Nothing is listed below the bound of a canonical buffer. -/
theorem Memory.read_below : ∀ {m : Memory} {lo a : Nat}, Memory.wfFrom lo m = true → a < lo →
    Memory.read m a = Memory.unlisted
  | [], _, _, _, _ => rfl
  | (x, v) :: m, lo, a, hm, ha => by
    simp only [Memory.wfFrom, Bool.and_eq_true, decide_eq_true_eq] at hm
    have hx : a ≠ x := by omega
    simp only [Memory.read, hx, if_false]
    exact Memory.read_below hm.2 (by omega)

/-- A read at the offset written gives the byte written (spec/20_memory.md R43). -/
theorem Memory.read_write_same : ∀ {m : Memory} {lo : Nat} (a : Nat) (b : Byte), Memory.wfFrom lo m = true →
    Memory.read (Memory.write m a b) a = b
  | [], _, a, b, _ => by
    unfold Memory.write
    split <;> simp_all [Memory.read]
  | (x, v) :: m, lo, a, b, hm => by
    simp only [Memory.wfFrom, Bool.and_eq_true, decide_eq_true_eq] at hm
    unfold Memory.write
    split
    · next h =>
      split
      · next hb =>
        have hx : a ≠ x := by omega
        simp only [Memory.read, hx, if_false, hb]
        exact Memory.read_below hm.2 (by omega)
      · simp [Memory.read]
    · split
      · next h =>
        split
        · next hb => rw [hb]; exact Memory.read_below hm.2 (by omega)
        · simp [Memory.read]
      · next h => simp only [Memory.read, h, if_false]; exact Memory.read_write_same a b hm.2

/-- A write leaves every other offset alone. -/
theorem Memory.read_write_other : ∀ (m : Memory) (a : Nat) (b : Byte) {c : Nat}, c ≠ a →
    Memory.read (Memory.write m a b) c = Memory.read m c
  | [], a, b, c, hc => by
    unfold Memory.write
    split <;> simp [Memory.read, hc]
  | (x, v) :: m, a, b, c, hc => by
    unfold Memory.write
    split
    · split <;> simp [Memory.read, hc]
    · split
      · next h =>
        subst h
        split <;> simp [Memory.read, hc]
      · simp only [Memory.read, Memory.read_write_other m a b hc]

theorem Memory.wfFrom_write : ∀ {m : Memory} {lo : Nat} (a : Nat) (b : Byte), lo ≤ a → Memory.wfFrom lo m = true →
    Memory.wfFrom lo (Memory.write m a b) = true
  | [], lo, a, b, ha, _ => by
    unfold Memory.write
    split <;> simp_all [Memory.wfFrom]
  | (x, v) :: m, lo, a, b, ha, hm => by
    have hm' := hm
    simp only [Memory.wfFrom, Bool.and_eq_true, decide_eq_true_eq] at hm
    unfold Memory.write
    split
    · split
      · exact hm'
      · next hx hb =>
        simp only [Memory.wfFrom, Bool.and_eq_true, decide_eq_true_eq]
        exact ⟨⟨ha, hb⟩, ⟨by omega, hm.1.2⟩, hm.2⟩
    · split
      · next h =>
        split
        · exact Memory.wfFrom_mono (by omega) hm.2
        · next hb =>
          simp only [Memory.wfFrom, Bool.and_eq_true, decide_eq_true_eq]
          subst h
          exact ⟨⟨ha, hb⟩, hm.2⟩
      · simp only [Memory.wfFrom, Bool.and_eq_true, decide_eq_true_eq]
        exact ⟨hm.1, Memory.wfFrom_write a b (by omega) hm.2⟩

/-- A write keeps the canonical form. -/
theorem Memory.wf_write {m : Memory} (a : Nat) (b : Byte) (h : m.wf = true) : (Memory.write m a b).wf = true :=
  Memory.wfFrom_write a b (Nat.zero_le a) h

/-- Writing a byte sequence keeps the canonical form. -/
theorem Memory.wf_writeBytes : ∀ (bs : List Byte) {m : Memory} (a : Nat), m.wf = true →
    (Memory.writeBytes m a bs).wf = true
  | [], _, _, h => h
  | b :: bs, _, a, h => Memory.wf_writeBytes bs (a + 1) (Memory.wf_write a b h)

/-- A write below the capacity keeps every listed offset below it. -/
theorem Memory.within_write {cap : Nat} : ∀ {m : Memory} {a : Nat} (b : Byte), a < cap → Memory.within cap m = true →
    Memory.within cap (Memory.write m a b) = true
  | [], a, b, ha, _ => by
    unfold Memory.write
    split <;> simp_all [Memory.within]
  | (x, v) :: m, a, b, ha, hm => by
    simp only [Memory.within, List.all_cons, Bool.and_eq_true, decide_eq_true_eq] at hm
    have ih := Memory.within_write (m := m) b ha hm.2
    simp only [Memory.within] at ih
    unfold Memory.write
    split
    · split <;> simp_all [Memory.within] <;> exact hm.2
    · split
      · split <;> simp_all [Memory.within] <;> exact hm.2
      · simp only [Memory.within, List.all_cons, Bool.and_eq_true, decide_eq_true_eq]
        exact ⟨hm.1, ih⟩

/-- Writing a byte sequence that fits keeps every listed offset below the capacity. -/
theorem Memory.within_writeBytes {cap : Nat} : ∀ (bs : List Byte) {m : Memory} (a : Nat), a + bs.length ≤ cap →
    Memory.within cap m = true → Memory.within cap (Memory.writeBytes m a bs) = true
  | [], _, _, _, h => h
  | b :: bs, _, a, ha, h => by
    simp only [List.length_cons] at ha
    exact Memory.within_writeBytes bs (a + 1) (by omega) (Memory.within_write b (by omega) h)

/-- Writing a byte sequence leaves every offset outside it alone. -/
theorem Memory.read_writeBytes_outside : ∀ (bs : List Byte) (m : Memory) (a : Nat) {c : Nat},
    c < a ∨ a + bs.length ≤ c → Memory.read (Memory.writeBytes m a bs) c = Memory.read m c
  | [], _, _, _, _ => rfl
  | b :: bs, m, a, c, h => by
    simp only [List.length_cons] at h
    rw [Memory.writeBytes, Memory.read_writeBytes_outside bs _ _ (by omega),
      Memory.read_write_other _ _ _ (by omega)]

/-- Reading back the bytes written. -/
theorem Memory.read_writeBytes_inside : ∀ (bs : List Byte) {m : Memory} (a : Nat), m.wf = true →
    ∀ {j : Nat} (hj : j < bs.length), Memory.read (Memory.writeBytes m a bs) (a + j) = bs[j]
  | b :: bs, m, a, h, 0, _ => by
    rw [Memory.writeBytes, Memory.read_writeBytes_outside bs _ _ (by omega)]
    exact Memory.read_write_same a b h
  | b :: bs, m, a, h, j + 1, hj => by
    have hj' : j < bs.length := by simpa using hj
    have ih := Memory.read_writeBytes_inside bs (a + 1) (Memory.wf_write a b h) hj'
    rw [Memory.writeBytes, show a + (j + 1) = a + 1 + j by omega, ih]
    rfl

@[simp] theorem Memory.length_readBytes (m : Memory) (a n : Nat) : (Memory.readBytes m a n).length = n := by
  simp [Memory.readBytes]

/-- One more byte is appended at the end. -/
theorem Memory.readBytes_succ (m : Memory) (a n : Nat) :
    Memory.readBytes m a (n + 1) = Memory.readBytes m a n ++ [Memory.read m (a + n)] := by
  simp [Memory.readBytes, List.range_succ]

/-- Reading back a whole sequence. -/
theorem Memory.readBytes_writeBytes (bs : List Byte) {m : Memory} (a : Nat) (h : m.wf = true) :
    Memory.readBytes (Memory.writeBytes m a bs) a bs.length = bs := by
  apply List.ext_getElem
  · simp
  · intro j h1 h2
    simp [Memory.readBytes, Memory.read_writeBytes_inside bs a h h2]

/-- A write outside a range leaves the range as it reads. -/
theorem Memory.readBytes_write_outside (m : Memory) (a n c : Nat) (b : Byte) (h : c < a ∨ a + n ≤ c) :
    Memory.readBytes (Memory.write m c b) a n = Memory.readBytes m a n := by
  apply List.map_congr_left
  intro j hj
  have hj' := List.mem_range.mp hj
  exact Memory.read_write_other m c b (by omega)

/-- The buffers after reset are canonical. -/
theorem reset_buffers_wf : State.reset.txbuf.wf = true ∧ State.reset.rxbuf.wf = true := ⟨rfl, rfl⟩

end Sys2Proof.Machine
end

