-- ==== Sys2Proof/Laws/State.lean ====
section
/-! SUPPORT. One lemma per field per named update of the state: later proofs never unfold a record update. -/

namespace Sys2Proof.Machine

variable (s : State)

@[simp] theorem emit_crc (es : List Output) : (emit es s).crc = s.crc := rfl
@[simp] theorem emit_txbuf (es : List Output) : (emit es s).txbuf = s.txbuf := rfl
@[simp] theorem emit_txlen (es : List Output) : (emit es s).txlen = s.txlen := rfl
@[simp] theorem emit_rxbuf (es : List Output) : (emit es s).rxbuf = s.rxbuf := rfl
@[simp] theorem emit_rxlen (es : List Output) : (emit es s).rxlen = s.rxlen := rfl
@[simp] theorem emit_cmd (es : List Output) : (emit es s).cmd = s.cmd := rfl
@[simp] theorem emit_phase (es : List Output) : (emit es s).phase = s.phase := rfl
@[simp] theorem emit_rxExpected (es : List Output) : (emit es s).rxExpected = s.rxExpected := rfl
@[simp] theorem emit_result (es : List Output) : (emit es s).result = s.result := rfl
@[simp] theorem emit_fault (es : List Output) : (emit es s).fault = s.fault := rfl
@[simp] theorem emit_inputs (es : List Output) : (emit es s).inputs = s.inputs := rfl
@[simp] theorem emit_outputs (es : List Output) : (emit es s).outputs = s.outputs ++ es := rfl

@[simp] theorem setInputs_crc (ops : List HostOp) : (setInputs ops s).crc = s.crc := rfl
@[simp] theorem setInputs_txbuf (ops : List HostOp) : (setInputs ops s).txbuf = s.txbuf := rfl
@[simp] theorem setInputs_txlen (ops : List HostOp) : (setInputs ops s).txlen = s.txlen := rfl
@[simp] theorem setInputs_rxbuf (ops : List HostOp) : (setInputs ops s).rxbuf = s.rxbuf := rfl
@[simp] theorem setInputs_rxlen (ops : List HostOp) : (setInputs ops s).rxlen = s.rxlen := rfl
@[simp] theorem setInputs_cmd (ops : List HostOp) : (setInputs ops s).cmd = s.cmd := rfl
@[simp] theorem setInputs_phase (ops : List HostOp) : (setInputs ops s).phase = s.phase := rfl
@[simp] theorem setInputs_rxExpected (ops : List HostOp) : (setInputs ops s).rxExpected = s.rxExpected := rfl
@[simp] theorem setInputs_result (ops : List HostOp) : (setInputs ops s).result = s.result := rfl
@[simp] theorem setInputs_fault (ops : List HostOp) : (setInputs ops s).fault = s.fault := rfl
@[simp] theorem setInputs_inputs (ops : List HostOp) : (setInputs ops s).inputs = ops := rfl
@[simp] theorem setInputs_outputs (ops : List HostOp) : (setInputs ops s).outputs = s.outputs := rfl

@[simp] theorem setCrc_crc (v : Word) : (setCrc v s).crc = some v := rfl
@[simp] theorem setCrc_txbuf (v : Word) : (setCrc v s).txbuf = s.txbuf := rfl
@[simp] theorem setCrc_txlen (v : Word) : (setCrc v s).txlen = s.txlen := rfl
@[simp] theorem setCrc_rxbuf (v : Word) : (setCrc v s).rxbuf = s.rxbuf := rfl
@[simp] theorem setCrc_rxlen (v : Word) : (setCrc v s).rxlen = s.rxlen := rfl
@[simp] theorem setCrc_cmd (v : Word) : (setCrc v s).cmd = s.cmd := rfl
@[simp] theorem setCrc_phase (v : Word) : (setCrc v s).phase = s.phase := rfl
@[simp] theorem setCrc_rxExpected (v : Word) : (setCrc v s).rxExpected = s.rxExpected := rfl
@[simp] theorem setCrc_result (v : Word) : (setCrc v s).result = s.result := rfl
@[simp] theorem setCrc_fault (v : Word) : (setCrc v s).fault = s.fault := rfl
@[simp] theorem setCrc_inputs (v : Word) : (setCrc v s).inputs = s.inputs := rfl
@[simp] theorem setCrc_outputs (v : Word) : (setCrc v s).outputs = s.outputs := rfl

@[simp] theorem loadRequest_crc (id : Word) (frame : List Byte) : (loadRequest id frame s).crc = s.crc := rfl
@[simp] theorem loadRequest_txbuf (id : Word) (frame : List Byte) : (loadRequest id frame s).txbuf = Memory.writeBytes s.txbuf 0 frame := rfl
@[simp] theorem loadRequest_txlen (id : Word) (frame : List Byte) : (loadRequest id frame s).txlen = frame.length := rfl
@[simp] theorem loadRequest_rxbuf (id : Word) (frame : List Byte) : (loadRequest id frame s).rxbuf = s.rxbuf := rfl
@[simp] theorem loadRequest_rxlen (id : Word) (frame : List Byte) : (loadRequest id frame s).rxlen = 0 := rfl
@[simp] theorem loadRequest_cmd (id : Word) (frame : List Byte) : (loadRequest id frame s).cmd = id := rfl
@[simp] theorem loadRequest_phase (id : Word) (frame : List Byte) : (loadRequest id frame s).phase = s.phase := rfl
@[simp] theorem loadRequest_rxExpected (id : Word) (frame : List Byte) : (loadRequest id frame s).rxExpected = s.rxExpected := rfl
@[simp] theorem loadRequest_result (id : Word) (frame : List Byte) : (loadRequest id frame s).result = s.result := rfl
@[simp] theorem loadRequest_fault (id : Word) (frame : List Byte) : (loadRequest id frame s).fault = s.fault := rfl
@[simp] theorem loadRequest_inputs (id : Word) (frame : List Byte) : (loadRequest id frame s).inputs = s.inputs := rfl
@[simp] theorem loadRequest_outputs (id : Word) (frame : List Byte) : (loadRequest id frame s).outputs = s.outputs := rfl

@[simp] theorem openExchange_crc (n : Nat) : (openExchange n s).crc = s.crc := rfl
@[simp] theorem openExchange_txbuf (n : Nat) : (openExchange n s).txbuf = s.txbuf := rfl
@[simp] theorem openExchange_txlen (n : Nat) : (openExchange n s).txlen = s.txlen := rfl
@[simp] theorem openExchange_rxbuf (n : Nat) : (openExchange n s).rxbuf = s.rxbuf := rfl
@[simp] theorem openExchange_rxlen (n : Nat) : (openExchange n s).rxlen = s.rxlen := rfl
@[simp] theorem openExchange_cmd (n : Nat) : (openExchange n s).cmd = s.cmd := rfl
@[simp] theorem openExchange_phase (n : Nat) : (openExchange n s).phase = .await := rfl
@[simp] theorem openExchange_rxExpected (n : Nat) : (openExchange n s).rxExpected = n := rfl
@[simp] theorem openExchange_result (n : Nat) : (openExchange n s).result = .none := rfl
@[simp] theorem openExchange_fault (n : Nat) : (openExchange n s).fault = s.fault := rfl
@[simp] theorem openExchange_inputs (n : Nat) : (openExchange n s).inputs = s.inputs := rfl
@[simp] theorem openExchange_outputs (n : Nat) : (openExchange n s).outputs = s.outputs := rfl

@[simp] theorem settle_crc (r : Result) : (settle r s).crc = s.crc := rfl
@[simp] theorem settle_txbuf (r : Result) : (settle r s).txbuf = s.txbuf := rfl
@[simp] theorem settle_txlen (r : Result) : (settle r s).txlen = s.txlen := rfl
@[simp] theorem settle_rxbuf (r : Result) : (settle r s).rxbuf = s.rxbuf := rfl
@[simp] theorem settle_rxlen (r : Result) : (settle r s).rxlen = s.rxlen := rfl
@[simp] theorem settle_cmd (r : Result) : (settle r s).cmd = s.cmd := rfl
@[simp] theorem settle_phase (r : Result) : (settle r s).phase = .idle := rfl
@[simp] theorem settle_rxExpected (r : Result) : (settle r s).rxExpected = 0 := rfl
@[simp] theorem settle_result (r : Result) : (settle r s).result = r := rfl
@[simp] theorem settle_fault (r : Result) : (settle r s).fault = s.fault := rfl
@[simp] theorem settle_inputs (r : Result) : (settle r s).inputs = s.inputs := rfl
@[simp] theorem settle_outputs (r : Result) : (settle r s).outputs = s.outputs := rfl

@[simp] theorem pushRx_crc (b : Byte) : (pushRx b s).crc = s.crc := rfl
@[simp] theorem pushRx_txbuf (b : Byte) : (pushRx b s).txbuf = s.txbuf := rfl
@[simp] theorem pushRx_txlen (b : Byte) : (pushRx b s).txlen = s.txlen := rfl
@[simp] theorem pushRx_rxbuf (b : Byte) : (pushRx b s).rxbuf = Memory.write s.rxbuf s.rxlen b := rfl
@[simp] theorem pushRx_rxlen (b : Byte) : (pushRx b s).rxlen = s.rxlen + 1 := rfl
@[simp] theorem pushRx_cmd (b : Byte) : (pushRx b s).cmd = s.cmd := rfl
@[simp] theorem pushRx_phase (b : Byte) : (pushRx b s).phase = s.phase := rfl
@[simp] theorem pushRx_rxExpected (b : Byte) : (pushRx b s).rxExpected = s.rxExpected := rfl
@[simp] theorem pushRx_result (b : Byte) : (pushRx b s).result = s.result := rfl
@[simp] theorem pushRx_fault (b : Byte) : (pushRx b s).fault = s.fault := rfl
@[simp] theorem pushRx_inputs (b : Byte) : (pushRx b s).inputs = s.inputs := rfl
@[simp] theorem pushRx_outputs (b : Byte) : (pushRx b s).outputs = s.outputs := rfl

@[simp] theorem setExpected_crc (n : Nat) : (setExpected n s).crc = s.crc := rfl
@[simp] theorem setExpected_txbuf (n : Nat) : (setExpected n s).txbuf = s.txbuf := rfl
@[simp] theorem setExpected_txlen (n : Nat) : (setExpected n s).txlen = s.txlen := rfl
@[simp] theorem setExpected_rxbuf (n : Nat) : (setExpected n s).rxbuf = s.rxbuf := rfl
@[simp] theorem setExpected_rxlen (n : Nat) : (setExpected n s).rxlen = s.rxlen := rfl
@[simp] theorem setExpected_cmd (n : Nat) : (setExpected n s).cmd = s.cmd := rfl
@[simp] theorem setExpected_phase (n : Nat) : (setExpected n s).phase = s.phase := rfl
@[simp] theorem setExpected_rxExpected (n : Nat) : (setExpected n s).rxExpected = n := rfl
@[simp] theorem setExpected_result (n : Nat) : (setExpected n s).result = s.result := rfl
@[simp] theorem setExpected_fault (n : Nat) : (setExpected n s).fault = s.fault := rfl
@[simp] theorem setExpected_inputs (n : Nat) : (setExpected n s).inputs = s.inputs := rfl
@[simp] theorem setExpected_outputs (n : Nat) : (setExpected n s).outputs = s.outputs := rfl

@[simp] theorem dropRx_crc : (dropRx s).crc = s.crc := rfl
@[simp] theorem dropRx_txbuf : (dropRx s).txbuf = s.txbuf := rfl
@[simp] theorem dropRx_txlen : (dropRx s).txlen = s.txlen := rfl
@[simp] theorem dropRx_rxbuf : (dropRx s).rxbuf = s.rxbuf := rfl
@[simp] theorem dropRx_rxlen : (dropRx s).rxlen = 0 := rfl
@[simp] theorem dropRx_cmd : (dropRx s).cmd = s.cmd := rfl
@[simp] theorem dropRx_phase : (dropRx s).phase = s.phase := rfl
@[simp] theorem dropRx_rxExpected : (dropRx s).rxExpected = s.rxExpected := rfl
@[simp] theorem dropRx_result : (dropRx s).result = s.result := rfl
@[simp] theorem dropRx_fault : (dropRx s).fault = s.fault := rfl
@[simp] theorem dropRx_inputs : (dropRx s).inputs = s.inputs := rfl
@[simp] theorem dropRx_outputs : (dropRx s).outputs = s.outputs := rfl

@[simp] theorem raiseFault_crc (f : UnitFault) : (raiseFault f s).crc = s.crc := rfl
@[simp] theorem raiseFault_txbuf (f : UnitFault) : (raiseFault f s).txbuf = s.txbuf := rfl
@[simp] theorem raiseFault_txlen (f : UnitFault) : (raiseFault f s).txlen = s.txlen := rfl
@[simp] theorem raiseFault_rxbuf (f : UnitFault) : (raiseFault f s).rxbuf = s.rxbuf := rfl
@[simp] theorem raiseFault_rxlen (f : UnitFault) : (raiseFault f s).rxlen = s.rxlen := rfl
@[simp] theorem raiseFault_cmd (f : UnitFault) : (raiseFault f s).cmd = s.cmd := rfl
@[simp] theorem raiseFault_phase (f : UnitFault) : (raiseFault f s).phase = s.phase := rfl
@[simp] theorem raiseFault_rxExpected (f : UnitFault) : (raiseFault f s).rxExpected = s.rxExpected := rfl
@[simp] theorem raiseFault_result (f : UnitFault) : (raiseFault f s).result = s.result := rfl
@[simp] theorem raiseFault_fault (f : UnitFault) : (raiseFault f s).fault = s.fault.or (some f) := rfl
@[simp] theorem raiseFault_inputs (f : UnitFault) : (raiseFault f s).inputs = s.inputs := rfl
@[simp] theorem raiseFault_outputs (f : UnitFault) : (raiseFault f s).outputs = s.outputs := rfl

@[simp] theorem resetUnit_crc : (resetUnit s).crc = none := rfl
@[simp] theorem resetUnit_txbuf : (resetUnit s).txbuf = [] := rfl
@[simp] theorem resetUnit_txlen : (resetUnit s).txlen = 0 := rfl
@[simp] theorem resetUnit_rxbuf : (resetUnit s).rxbuf = [] := rfl
@[simp] theorem resetUnit_rxlen : (resetUnit s).rxlen = 0 := rfl
@[simp] theorem resetUnit_cmd : (resetUnit s).cmd = 0 := rfl
@[simp] theorem resetUnit_phase : (resetUnit s).phase = .idle := rfl
@[simp] theorem resetUnit_rxExpected : (resetUnit s).rxExpected = 0 := rfl
@[simp] theorem resetUnit_result : (resetUnit s).result = .none := rfl
@[simp] theorem resetUnit_fault : (resetUnit s).fault = none := rfl
@[simp] theorem resetUnit_inputs : (resetUnit s).inputs = s.inputs := rfl
@[simp] theorem resetUnit_outputs : (resetUnit s).outputs = s.outputs := rfl

/-- Raising a fault in an unfaulted state (spec/60_exceptions.md R208). -/
theorem raiseFault_of_none (f : UnitFault) (h : s.fault = none) : raiseFault f s = { s with fault := some f } := by
  simp [raiseFault, h]

/-- A fault already there is kept (R208, R209). -/
theorem raiseFault_of_some (f g : UnitFault) (h : s.fault = some g) : raiseFault f s = s := by
  cases s; simp_all [raiseFault]

end Sys2Proof.Machine
end

