-- ==== Sys2Proof/Laws/Ops.lean ====
section
/-! SUPPORT. Inversion lemmas: for each shared operation, once, everything it can do. -/

namespace Sys2Proof.Machine

theorem guardFault_of_none {s : State} (h : s.fault = none) (a : Answer) : guardFault s a = a := by
  simp [guardFault, h]

theorem guardFault_of_some {s : State} {f : UnitFault} (h : s.fault = some f) (a : Answer) :
    guardFault s a = .fault (.stuck f) := by
  simp [guardFault, h]

/-- An operation with a next state ran in an unfaulted state. -/
theorem guardFault_next {s t : State} {a : Answer} (h : guardFault s a = .next t) : s.fault = none ∧ a = .next t := by
  unfold guardFault at h
  split at h
  · cases h
  · exact ⟨‹_›, h⟩

theorem guardIdle_of_idle {s : State} (hf : s.fault = none) (hp : s.phase = .idle) (a : Answer) :
    guardIdle s a = a := by
  simp [guardIdle, guardFault, hf, hp]

theorem guardIdle_of_await {s : State} (hf : s.fault = none) (hp : s.phase = .await) (a : Answer) :
    guardIdle s a = .next (raiseFault .busy s) := by
  simp [guardIdle, guardFault, hf, hp]

/-- An operation that Busy forbids either ran in IDLE or raised Busy. -/
theorem guardIdle_next {s t : State} {a : Answer} (h : guardIdle s a = .next t) :
    s.fault = none ∧ ((s.phase = .idle ∧ a = .next t) ∨ (s.phase = .await ∧ t = raiseFault .busy s)) := by
  obtain ⟨hf, h⟩ := guardFault_next h
  refine ⟨hf, ?_⟩
  split at h
  · exact .inl ⟨‹_›, h⟩
  · cases h; exact .inr ⟨‹_›, rfl⟩

/-- Every instruction is the ISSUE of its command with its payload. -/
theorem runInstr_eq_issue (k : Config) (i : Instr) (s : State) :
    runInstr k i s = issue k (instrCommand i) (instrPayload i) s := by
  cases i <;> rfl

/-- The meanings `exec` names are those of the unit of `mps`. -/
theorem exec_eq_runInstr (i : Instr) (s : State) : exec i s = runInstr mps i s := by
  cases i <;> rfl

theorem exec_eq_issue (i : Instr) (s : State) : exec i s = issue mps (instrCommand i) (instrPayload i) s := by
  rw [exec_eq_runInstr, runInstr_eq_issue]

/-- ISSUE either raised a fault or encoded the request and opened or settled the exchange. -/
theorem issue_next {k : Config} {c : Command} {p : List Byte} {s t : State} (h : issue k c p s = .next t) :
    s.fault = none ∧ ((∃ f, t = raiseFault f s) ∨
      (s.phase = .idle ∧ ∃ frame n, encode k (k.catalog c) p = .ok frame ∧
        expectedResponseBytes k (k.catalog c).id = .ok n ∧ t = issued (k.catalog c) n frame s)) := by
  obtain ⟨hf, ⟨hp, h⟩ | ⟨_, h⟩⟩ := guardIdle_next h
  · refine ⟨hf, ?_⟩
    split at h
    · next frame n h1 h2 => cases h; exact .inr ⟨hp, frame, n, h1, h2, rfl⟩
    · cases h; exact .inl ⟨_, rfl⟩
    · cases h; exact .inl ⟨_, rfl⟩
  · exact ⟨hf, .inl ⟨_, h⟩⟩

/-- A received byte in IDLE faults; in AWAIT it is stored, and then the count may be extended, the exchange completed,
or a fault raised. -/
theorem rxByte_next {k : Config} {b : Byte} {s t : State} (h : rxByte k b s = .next t) :
    s.fault = none ∧
    ((s.phase = .idle ∧ t = raiseFault .unexpectedRx s) ∨
     (s.phase = .await ∧ s.rxlen < k.rxCap ∧
       ((∃ f, extendStage k (pushRx b s) = .error f ∧ t = raiseFault f (pushRx b s)) ∨
        (∃ u, extendStage k (pushRx b s) = .ok u ∧ t = if u.rxlen = u.rxExpected then complete k u else u)))) := by
  obtain ⟨hf, h⟩ := guardFault_next h
  refine ⟨hf, ?_⟩
  split at h
  · cases h; exact .inl ⟨‹_›, rfl⟩
  · split at h
    · next hp hr =>
      refine .inr ⟨hp, hr, ?_⟩
      split at h
      · next f hx => cases h; exact .inl ⟨f, hx, rfl⟩
      · next u hx => cases h; exact .inr ⟨u, hx, rfl⟩
    · cases h

@[simp] theorem received_length (s : State) : (received s).length = s.rxlen := by simp [received]

/-- A byte stored joins the bytes received (spec/44_exchange_sequencer.md R184). -/
theorem received_pushRx (b : Byte) {s : State} (hw : s.rxbuf.wf = true) : received (pushRx b s) = received s ++ [b] := by
  simp only [received, pushRx_rxbuf, pushRx_rxlen, Memory.readBytes_succ, Nat.zero_add]
  rw [Memory.read_write_same _ _ hw, Memory.readBytes_write_outside _ _ _ _ _ (.inr (by omega))]

/-- The tenth byte of an EngData response may extend the awaited count; nothing else does
(spec/44_exchange_sequencer.md R185). -/
theorem extendStage_ok {k : Config} {s u : State} (h : extendStage k s = .ok u) :
    u = s ∨ ∃ d status len, u = setExpected (10 + len) s ∧ s.rxlen = 10 ∧ s.rxExpected = 10 ∧
      lookup k s.cmd = .ok d ∧ d.strategy = .engData ∧ memRead8 (received s) 1 = some status ∧
      statusOk k status = true ∧ memRead (received s) 6 4 = some len ∧ len ≤ k.engDataMaxL := by
  unfold extendStage at h
  split at h
  · next hl =>
    split at h
    · next d hd =>
      split at h
      · next hh =>
        unfold extendEngData at h
        split at h
        · next status len h1 h2 =>
          split at h
          · next hok =>
            split at h
            · cases h
            · next h3 => cases h; exact .inr ⟨d, status, len, rfl, hl, hh.2, hd, hh.1, h1, hok, h2, Nat.le_of_not_lt h3⟩
          · cases h; exact .inl rfl
        · cases h
      · cases h; exact .inl rfl
    · cases h
  · cases h; exact .inl rfl

/-- Completion raises a fault, or ends the exchange with what decode answers and puts out one done. -/
theorem complete_cases (k : Config) (s : State) :
    (∃ f, complete k s = raiseFault f s) ∨
    ∃ d r es, lookup k s.cmd = .ok d ∧ decode k d (received s) = .ok r ∧
      es = (if r = .absent then [Output.framingError] else []) ++ [.done r] ∧ complete k s = emit es (settle r s) := by
  unfold complete
  split
  · exact .inl ⟨_, rfl⟩
  · next d hd =>
    split
    · exact .inl ⟨_, rfl⟩
    · next h => exact .inr ⟨d, .absent, _, hd, h, rfl, rfl⟩
    · next r hr h =>
      refine .inr ⟨d, r, _, hd, h, rfl, ?_⟩
      have : r ≠ .absent := hr
      simp [this]

/-- The loop of RECV: the invariant of a step of RX_BYTE is one of RECV. -/
theorem rxBytes_induction {k : Config} {P : State → Prop} (hstep : ∀ b s t, P s → rxByte k b s = .next t → P t) :
    ∀ (bs : List Byte) {s t : State}, P s → rxBytes k bs s = .next t → P t
  | [], _, _, hs, h => by cases h; exact hs
  | b :: bs, s, t, hs, h => by
    unfold rxBytes at h
    split at h
    · next u hu =>
      split at h
      · exact rxBytes_induction hstep bs (hstep b s u hs hu) h
      · cases h; exact hstep b s _ hs hu
    · cases h
    · cases h

/-- The IO_ERROR operation has one outcome in an unfaulted unit. -/
theorem ioError_next {s t : State} (h : ioError s = .next t) :
    s.fault = none ∧ t = emit [.done .transportError] (dropRx (settle .transportError s)) := by
  obtain ⟨hf, h⟩ := guardFault_next h
  cases h
  exact ⟨hf, rfl⟩

/-- What an operation does: an ISSUE runs its instruction or raises a fault, RECV takes its bytes, and the others have
their one effect or raise a fault that changes nothing else. -/
theorem perform_next {k : Config} {op : HostOp} {s t : State} (h : perform k op s = .next t) :
    (∃ f, s.fault = none ∧ (∀ bytes, op ≠ .recv bytes) ∧ t = raiseFault f s) ∨
    (∃ id payload i, op = .issue id payload ∧ decodeRequest k id payload = .ok i ∧ runInstr k i s = .next t) ∨
    (∃ bytes, s.fault = none ∧ op = .recv bytes ∧ rxBytes k bytes s = .next t) ∨
    (s.fault = none ∧ op = .ioError ∧ t = emit [.done .transportError] (dropRx (settle .transportError s))) ∨
    (op = .reset ∧ t = resetUnit s) ∨
    (s.fault = none ∧ s.phase = .idle ∧
      ((∃ seed, op = .crcLoad seed ∧ t = setCrc seed s) ∨
       (∃ b c, op = .crcByte b ∧ s.crc = some c ∧ t = setCrc (crcStep k c b) s) ∨
       (∃ c, op = .crcRead ∧ s.crc = some c ∧ t = emit [.crcValue c] s))) := by
  cases op with
  | issue id payload =>
    simp only [perform] at h
    split at h
    · next i hi => exact .inr (.inl ⟨id, payload, i, rfl, hi, h⟩)
    · obtain ⟨hf, ⟨_, h⟩ | ⟨_, h⟩⟩ := guardIdle_next h
      · cases h; exact .inl ⟨_, hf, by simp, rfl⟩
      · exact .inl ⟨_, hf, by simp, h⟩
  | recv bytes =>
    obtain ⟨hf, h⟩ := guardFault_next h
    exact .inr (.inr (.inl ⟨bytes, hf, rfl, h⟩))
  | ioError =>
    obtain ⟨hf, h⟩ := ioError_next h
    exact .inr (.inr (.inr (.inl ⟨hf, rfl, h⟩)))
  | reset => cases h; exact .inr (.inr (.inr (.inr (.inl ⟨rfl, rfl⟩))))
  | crcLoad seed =>
    obtain ⟨hf, ⟨hp, h⟩ | ⟨_, h⟩⟩ := guardIdle_next h
    · cases h; exact .inr (.inr (.inr (.inr (.inr ⟨hf, hp, .inl ⟨seed, rfl, rfl⟩⟩))))
    · exact .inl ⟨_, hf, by simp, h⟩
  | crcByte b =>
    obtain ⟨hf, ⟨hp, h⟩ | ⟨_, h⟩⟩ := guardIdle_next h
    · split at h
      · next c hc => cases h; exact .inr (.inr (.inr (.inr (.inr ⟨hf, hp, .inr (.inl ⟨b, c, rfl, hc, rfl⟩)⟩))))
      · cases h; exact .inl ⟨_, hf, by simp, rfl⟩
    · exact .inl ⟨_, hf, by simp, h⟩
  | crcRead =>
    obtain ⟨hf, ⟨hp, h⟩ | ⟨_, h⟩⟩ := guardIdle_next h
    · split at h
      · next c hc => cases h; exact .inr (.inr (.inr (.inr (.inr ⟨hf, hp, .inr (.inr ⟨c, rfl, hc, rfl⟩)⟩))))
      · cases h; exact .inl ⟨_, hf, by simp, rfl⟩
    · exact .inl ⟨_, hf, by simp, h⟩

/-- One step: the unit waits, performs the next operation, or is reset. -/
theorem takeStep_next {k : Config} {s t : State} (h : takeStep k s = .next t) :
    (s.fault = none ∧ s.inputs = [] ∧ t = s) ∨
    (s.fault = none ∧ ∃ op rest, s.inputs = op :: rest ∧ perform k op (setInputs rest s) = .next t) ∨
    (∃ f rest, s.fault = some f ∧ afterReset s.inputs = some rest ∧ t = resetUnit (setInputs rest s)) := by
  unfold takeStep at h
  split at h
  · next hf =>
    unfold serve at h
    split at h
    · next hi => cases h; exact .inl ⟨hf, hi, rfl⟩
    · next op rest hi => exact .inr (.inl ⟨hf, op, rest, hi, h⟩)
  · next f hf =>
    split at h
    · next rest hr => cases h; exact .inr (.inr ⟨f, rest, hf, hr, rfl⟩)
    · cases h

end Sys2Proof.Machine
end

