-- ==== Sys2Proof/Laws/PerInstr.lean ====
section
/-! SUPPORT. Statements made per instruction. `RequestShape`: the request frame of an instruction is its eight header
bytes followed by its payload, and fits the transmit buffer (spec/30_encoding.md R61, spec/10_state.md R22). -/

namespace Sys2Proof.Laws.RequestShape

open Sys2Proof.Machine

/-- The shape of an instruction's request frame. -/
def Statement (i : Instr) : Prop :=
  (encodeInstr mps i).length = reqHdr + (instrPayload i).length ∧ (encodeInstr mps i).length ≤ mps.txCap ∧
  (encodeInstr mps i).drop reqHdr = instrPayload i

theorem answer : Statement .answer := ⟨rfl, by decide, rfl⟩
theorem conc : Statement .conc := ⟨rfl, by decide, rfl⟩
theorem ident : Statement .ident := ⟨rfl, by decide, rfl⟩
theorem engData : Statement .engData := ⟨rfl, by decide, rfl⟩
theorem temp : Statement .temp := ⟨rfl, by decide, rfl⟩
theorem pres : Statement .pres := ⟨rfl, by decide, rfl⟩
theorem relHum : Statement .relHum := ⟨rfl, by decide, rfl⟩
theorem absHum : Statement .absHum := ⟨rfl, by decide, rfl⟩
theorem status : Statement .status := ⟨rfl, by decide, rfl⟩
theorem version : Statement .version := ⟨rfl, by decide, rfl⟩
theorem sensorInfo : Statement .sensorInfo := ⟨rfl, by decide, rfl⟩
theorem meas (unit mode : Nibble) : Statement (.meas unit mode) := ⟨rfl, le_refl 9, rfl⟩
theorem shutdown : Statement .shutdown := ⟨rfl, by decide, rfl⟩

end Sys2Proof.Laws.RequestShape
end

