-- ==== Sys2Proof/Tests/Slice0.lean ====
section
/-! SUPPORT. Tests and witnesses. Every expected value is the spec's own: a vector of spec/95_test_vectors.md (its id
stands before the theorem), a row of spec/40_checksum_unit.md R92, or a value worked out by hand from a rule. The
witnesses show, for each statement with hypotheses, states and operands that meet them together. -/

namespace Sys2Proof.Tests

open Sys2Proof.Machine Sys2Proof.Safety

/-! ### Helpers -/

/-- The next state of an answer, if it has one. -/
def nextOf : Answer → Option State
  | .next t => some t
  | .fault _ => none
  | .refused _ => none

/-- The machine's fault of an answer, if it stops in one. -/
def stopOf : Answer → Option Fault
  | .next _ => none
  | .fault f => some f
  | .refused _ => none

/-- What the host sees put out, with phase, awaited count and unit fault. -/
def seen (a : Answer) : Option (List Output × Phase × Nat × Option UnitFault) :=
  (nextOf a).map fun t => (t.outputs, t.phase, t.rxExpected, t.fault)

/-- The same of what is stored: transmit length, command, receive length and result. -/
def held (a : Answer) : Option (Nat × Word × Nat × Result) :=
  (nextOf a).map fun t => (t.txlen, t.cmd, t.rxlen, t.result)

/-- A small state: an exchange of command `id` open, awaiting `n` bytes, with `bytes` received. -/
def waiting (id : Word) (n : Nat) (bytes : List Byte) : State :=
  { State.reset with
    cmd := id, phase := .await, rxExpected := n, rxbuf := Memory.writeBytes [] 0 bytes, rxlen := bytes.length }

/-- A small state: quiescent, with the checksum register holding `c`. -/
def loaded (c : Word) : State := { State.reset with crc := some c }

/-- A small state: faulted. -/
def broken (f : UnitFault) (ops : List HostOp) : State := { State.reset with fault := some f, inputs := ops }

/-- The value of a decode that has one. -/
def valueOf (r : Except UnitFault Result) : Option Result :=
  match r with
  | .ok v => some v
  | .error _ => none

/-- The fault of a decode that has one. -/
def faultOf (r : Except UnitFault Result) : Option UnitFault :=
  match r with
  | .ok _ => none
  | .error f => some f

/-- A decode whose value is shown has that value. -/
theorem ok_of_valueOf {r : Except UnitFault Result} (h : (valueOf r).isSome = true) : ∃ v, r = .ok v := by
  cases r with
  | ok v => exact ⟨v, rfl⟩
  | error f => cases h

/-- The instruction a frame decodes to, with the bytes left over. -/
def decoded (bytes : List Byte) : Option (Instr × List Byte) :=
  match decodeFrame mps bytes with
  | .ok r => some r
  | .error _ => none

/-- Why a frame is refused. -/
def refusedFrame (bytes : List Byte) : Option DecodeError :=
  match decodeFrame mps bytes with
  | .ok _ => none
  | .error e => some e

/-- The two fields every decoded response begins with, of an OK response. -/
def okHeader (name : String) : Fields := [("CommandId", .text name), ("Status", .enum (.status .ok))]

/-- The request frames Q1 to Q22 of spec/95_test_vectors.md section 4. -/
def q10 : List Byte := [0x42, 0, 0, 0, 0, 0, 0x48, 0x48]

/-- V24. -/
def v24 : List Byte := [0x42, 0x00, 0x08, 0x00, 0x34, 0x62, 0x04, 0x01, 0x00, 0x01, 0x01, 0x00, 0x02, 0x00]

/-- V12. -/
def v12 : List Byte := [0x03, 0x00, 0x04, 0x00, 0x1B, 0x83, 0x00, 0x00, 0x48, 0x41]

/-- V10. -/
def v10 : List Byte :=
  [0x01, 0x00, 0x1C, 0x00, 0x39, 0x07, 0xD2, 0x04, 0x00, 0x00, 0x00, 0x00, 0x48, 0x41, 0x03, 0x00, 0x00] ++
  [0x00, 0x00, 0x00, 0xC8, 0x41, 0x66, 0xA6, 0xCA, 0x42, 0x00, 0x00, 0x20, 0x42, 0x00, 0x00, 0x18, 0x41]

/-- V31. -/
def v31 : List Byte := [0x09, 0x00, 0x05, 0x00, 0xD4, 0x77, 0x01, 0x00, 0x00, 0x00, 0xAB]

/-- V43. -/
def v43 : List Byte :=
  [0x43, 0x00, 0x44, 0x00, 0xA3, 0x5B, 0x53, 0x4E, 0x2D, 0x30, 0x30, 0x30, 0x31, 0x32, 0x33, 0x00] ++
  List.replicate 22 0x00 ++
  [0x05, 0x00, 0x00, 0x00, 0x32, 0x30, 0x32, 0x34, 0x2D, 0x30, 0x31, 0x2D, 0x31, 0x35] ++ List.replicate 6 0x00 ++
  [0x32, 0x30, 0x32, 0x33, 0x2D, 0x31, 0x32, 0x2D, 0x30, 0x31] ++ List.replicate 6 0x00

/-! ### Well-formedness: one ill-formed term for each check -/

/-- The unit's configuration with one descriptor changed. -/
def withRow (c : Command) (f : Descriptor → Descriptor) : Config :=
  { mps with catalog := fun x => if x = c then f (mps.catalog x) else mps.catalog x }

theorem test_wf_unit : mps.wf = true := mps_wf
theorem test_wf_same_id : (withRow .conc fun d => { d with id := 1 }).idsDistinct = false := by decide
theorem test_wf_wide_id : (withRow .conc fun d => { d with id := 256 }).idsFitEcho = false := by decide
theorem test_wf_same_name : (withRow .conc fun d => { d with name := "ANSWER" }).namesDistinct = false := by decide
theorem test_wf_same_field : (withRow .answer fun d =>
    { d with fields := [("CONC", .f32), ("CONC", .f32)] }).namesDistinct = false := by decide
theorem test_wf_header_field : (withRow .conc fun d => { d with fields := [("Status", .u32)] }).namesDistinct = false := by
  decide
theorem test_wf_widths : (withRow .status fun d => { d with respLen := 2 }).widthsSum = false := by decide
/-- Condition 4 names ENG_DATA's descriptor, not its strategy: no other descriptor is let off, and ENG_DATA's fixed part is
4 bytes whatever its strategy. -/
theorem test_wf_widths_strategy :
    (withRow .conc fun d => { d with strategy := .engData, respLen := 128 }).widthsSum = false := by decide
theorem test_wf_widths_unsized :
    (withRow .conc fun d => { d with fields := ("DATA", .dataL) :: d.fields }).widthsSum = false := by decide
theorem test_wf_widths_engData :
    (withRow .engData fun d => { d with fields := [("LENGTH", .u16), ("DATA", .dataL)] }).widthsSum = false := by decide
theorem test_wf_widths_engData_strategy : (withRow .engData fun d => { d with strategy := .generic }).widthsSum = true := by
  decide
theorem test_wf_columns : (withRow .engData fun d => { d with strategy := .generic }).columnsGiven = false := by decide
theorem test_wf_request_only : (withRow .meas fun d => { d with respLen := 1 }).requestOnlyEmpty = false := by decide
theorem test_wf_frames : { mps with rxCap := 137 }.framesFit = false := by decide
theorem test_wf_tx : { mps with txCap := 8 }.framesFit = false := by decide
theorem test_wf_status_codes : { mps with statusCode := fun _ => 0 }.statusCodesDistinct = false := by decide
theorem test_wf_gas_codes : { mps with gasCode := fun _ => 0 }.gasCodesDistinct = false := by decide
theorem test_wf_poly : { mps with crcPoly := 0x1020 }.polyOdd = false := by decide
theorem test_wf_refused : { mps with crcPoly := 0x1020 }.wf = false := by decide
theorem test_build_refused : (buildUnit { mps with txCap := 8 }).isNone = true := by decide
theorem test_build_default : buildUnit mps = some Sys2Proof.core := buildUnit_mps
theorem test_wf_recv_empty : (HostOp.recv []).wf = false := rfl
theorem test_wf_recv_one : (HostOp.recv [0]).wf = true := rfl

/-! ### Decoding: the frames Q1 to Q22, written out from the spec -/

theorem test_decode_answer : decoded [0x01, 0, 0, 0, 0, 0, 0xED, 0x76] = some (.answer, []) := by decide
theorem test_decode_conc : decoded [0x03, 0, 0, 0, 0, 0, 0x4B, 0xF9] = some (.conc, []) := by decide
theorem test_decode_ident : decoded [0x04, 0, 0, 0, 0, 0, 0x53, 0x3E] = some (.ident, []) := by decide
theorem test_decode_engData : decoded [0x09, 0, 0, 0, 0, 0, 0x37, 0x68] = some (.engData, []) := by decide
theorem test_decode_temp : decoded [0x21, 0, 0, 0, 0, 0, 0x85, 0x0D] = some (.temp, []) := by decide
theorem test_decode_pres : decoded [0x22, 0, 0, 0, 0, 0, 0xF0, 0xC5] = some (.pres, []) := by decide
theorem test_decode_relHum : decoded [0x23, 0, 0, 0, 0, 0, 0x23, 0x82] = some (.relHum, []) := by decide
theorem test_decode_absHum : decoded [0x24, 0, 0, 0, 0, 0, 0x3B, 0x45] = some (.absHum, []) := by decide
theorem test_decode_status : decoded [0x41, 0, 0, 0, 0, 0, 0x3D, 0x80] = some (.status, []) := by decide
theorem test_decode_version : decoded q10 = some (.version, []) := by decide
theorem test_decode_sensorInfo : decoded [0x43, 0, 0, 0, 0, 0, 0x9B, 0x0F] = some (.sensorInfo, []) := by decide
theorem test_decode_shutdown : decoded [0x62, 0, 0, 0, 0, 0, 0x20, 0x33] = some (.shutdown, []) := by decide
theorem test_decode_meas_0_0 : decoded [0x61, 0, 1, 0, 0, 0, 0x15, 0xB3, 0x00] = some (.meas 0 0, []) := by decide
theorem test_decode_meas_0_2 : decoded [0x61, 0, 1, 0, 0, 0, 0x57, 0x93, 0x02] = some (.meas 0 2, []) := by decide
theorem test_decode_meas_0_3 : decoded [0x61, 0, 1, 0, 0, 0, 0x76, 0x83, 0x03] = some (.meas 0 3, []) := by decide
theorem test_decode_meas_1_2 : decoded [0x61, 0, 1, 0, 0, 0, 0x66, 0x81, 0x12] = some (.meas 1 2, []) := by decide
theorem test_decode_meas_1_3 : decoded [0x61, 0, 1, 0, 0, 0, 0x47, 0x91, 0x13] = some (.meas 1 3, []) := by decide
theorem test_decode_meas_2_0 : decoded [0x61, 0, 1, 0, 0, 0, 0x77, 0x97, 0x20] = some (.meas 2 0, []) := by decide
theorem test_decode_meas_2_2 : decoded [0x61, 0, 1, 0, 0, 0, 0x35, 0xB7, 0x22] = some (.meas 2 2, []) := by decide
theorem test_decode_meas_2_3 : decoded [0x61, 0, 1, 0, 0, 0, 0x14, 0xA7, 0x23] = some (.meas 2 3, []) := by decide
theorem test_decode_meas_3_0 : decoded [0x61, 0, 1, 0, 0, 0, 0x46, 0x85, 0x30] = some (.meas 3 0, []) := by decide
theorem test_decode_meas_15_15 : decoded [0x61, 0, 1, 0, 0, 0, 0xE5, 0xAD, 0xFF] = some (.meas 15 15, []) := by decide

/-- The same frames from the encoder, checksums included: Q1, Q4, Q12, Q13, Q22. -/
theorem test_encode_answer : encodeInstr mps .answer = [0x01, 0, 0, 0, 0, 0, 0xED, 0x76] := by decide
theorem test_encode_engData : encodeInstr mps .engData = [0x09, 0, 0, 0, 0, 0, 0x37, 0x68] := by decide
theorem test_encode_shutdown : encodeInstr mps .shutdown = [0x62, 0, 0, 0, 0, 0, 0x20, 0x33] := by decide
theorem test_encode_meas_0_0 : encodeInstr mps (.meas 0 0) = [0x61, 0, 1, 0, 0, 0, 0x15, 0xB3, 0x00] := by decide
theorem test_encode_meas_15_15 : encodeInstr mps (.meas 15 15) = [0x61, 0, 1, 0, 0, 0, 0xE5, 0xAD, 0xFF] := by decide

/-- The `match` column of spec/opcode_table.json, first, operand-carrying and last row. -/
theorem test_table_answer : decodeTableWord 48 0x000000000001 = some .answer := by decide
theorem test_table_meas : decodeTableWord 72 0x5A0000000000010061 = some (.meas 5 10) := by decide
theorem test_table_meas_short : decodeTableWord 48 0x000000010061 = some (.meas 0 0) := by decide
theorem test_table_shutdown : decodeTableWord 48 0x000000000062 = some .shutdown := by decide
theorem test_table_unknown : decodeTableWord 48 0x000000000002 = none := by decide

/-- A configuration with another identifier for CONC (`CMDID_CONC`, spec/30_encoding.md R66). -/
def recoded : Config := withRow .conc fun d => { d with id := 0x05 }

theorem test_recoded_wf : recoded.wf = true := by decide
theorem test_recoded_decodes : decodeFrame recoded [0x05, 0, 0, 0, 0, 0, 0, 0] = .ok (.conc, []) := by rfl
theorem test_recoded_refuses : decodeFrame recoded [0x03, 0, 0, 0, 0, 0, 0x4B, 0xF9] = .error .unknownCommand := by rfl
theorem test_recoded_issue : ((nextOf (perform recoded (.issue 0x05 []) State.reset)).map fun t =>
    ((sentFrame t).take 6, t.cmd, t.rxExpected, t.fault)) = some ([0x05, 0, 0, 0, 0, 0], 0x0005, 10, none) := by decide
theorem test_recoded_unknown : nextOf (perform recoded (.issue 0x03 []) State.reset) =
    some { State.reset with fault := some .unknownCommand } := by decide
/-- The table's second entry is the polynomial (spec/40_checksum_unit.md R92), whichever it is. -/
theorem test_polynomial : nextOf (perform { mps with crcPoly := 0x8005 } (.crcByte 0x01) (loaded 0)) =
    some (loaded 0x8005) := by decide

/-- section 4, last paragraph: frames outside the catalog. -/
theorem test_encode_request_wide :
    encodeRequest mps 0x0101 [] = some [0x01, 0x01, 0x00, 0x00, 0x00, 0x00, 0x8C, 0xCE] := by decide
theorem test_encode_request_payload :
    encodeRequest mps 0x0042 [0x01, 0x02] = some [0x42, 0x00, 0x02, 0x00, 0x00, 0x00, 0x7C, 0xD1, 0x01, 0x02] := by
  decide

/-! ### The checksum unit: V1 to V9h, and rows of the table of R92 -/

theorem test_crc_empty : crc16 mps 0xFFFF [] = 0xFFFF := by decide
theorem test_crc_00 : crc16 mps 0xFFFF [0x00] = 0xE1F0 := by decide
theorem test_crc_01 : crc16 mps 0xFFFF [0x01] = 0xF1D1 := by decide
theorem test_crc_ff_ff : crc16 mps 0xFFFF [0xFF, 0xFF] = 0x0000 := by decide
theorem test_crc_check :
    crc16 mps 0xFFFF [0x31, 0x32, 0x33, 0x34, 0x35, 0x36, 0x37, 0x38, 0x39] = 0x29B1 := by decide
theorem test_crc_seed_0 : crc16 mps 0x0000 [0x31, 0x32, 0x33, 0x34, 0x35, 0x36, 0x37, 0x38, 0x39] = 0x31C3 := by decide
theorem test_crc_seed_1d0f :
    crc16 mps 0x1D0F [0x31, 0x32, 0x33, 0x34, 0x35, 0x36, 0x37, 0x38, 0x39] = 0xE5CC := by decide
theorem test_crc_high_byte : crc16 mps 0x8000 [0x00] = 0x9188 := by decide
theorem test_crc_table :
    [(0x01, 0x1021), (0x0E, 0xE1CE), (0x19, 0x8318), (0x4F, 0xB92B), (0x66, 0x0C60), (0x6F, 0x9D49), (0x73, 0x4EF4),
      (0x80, 0x9188), (0x98, 0x02B1), (0xCE, 0x3882), (0xF5, 0xBFBA)].all
      (fun r : Byte × Word => crcTable mps r.1 == r.2) = true := by decide
theorem test_crc_bits : crcStepBits mps 0xFFFF 0x41 = 0xB915 := by decide

/-! ### The instructions: ISSUE after reset (X1, X6, Q1 to Q22) -/

theorem test_answer_sent : seen (exec .answer State.reset) =
    some ([.tx [0x01, 0, 0, 0, 0, 0, 0xED, 0x76]], .await, 34, none) := by decide
theorem test_conc_sent : seen (exec .conc State.reset) =
    some ([.tx [0x03, 0, 0, 0, 0, 0, 0x4B, 0xF9]], .await, 10, none) := by decide
theorem test_ident_sent : seen (exec .ident State.reset) =
    some ([.tx [0x04, 0, 0, 0, 0, 0, 0x53, 0x3E]], .await, 10, none) := by decide
theorem test_engData_sent : seen (exec .engData State.reset) =
    some ([.tx [0x09, 0, 0, 0, 0, 0, 0x37, 0x68]], .await, 10, none) := by decide
theorem test_temp_sent : seen (exec .temp State.reset) =
    some ([.tx [0x21, 0, 0, 0, 0, 0, 0x85, 0x0D]], .await, 10, none) := by decide
theorem test_pres_sent : seen (exec .pres State.reset) =
    some ([.tx [0x22, 0, 0, 0, 0, 0, 0xF0, 0xC5]], .await, 10, none) := by decide
theorem test_relHum_sent : seen (exec .relHum State.reset) =
    some ([.tx [0x23, 0, 0, 0, 0, 0, 0x23, 0x82]], .await, 10, none) := by decide
theorem test_absHum_sent : seen (exec .absHum State.reset) =
    some ([.tx [0x24, 0, 0, 0, 0, 0, 0x3B, 0x45]], .await, 10, none) := by decide
theorem test_status_sent : seen (exec .status State.reset) =
    some ([.tx [0x41, 0, 0, 0, 0, 0, 0x3D, 0x80]], .await, 7, none) := by decide
theorem test_version_sent : seen (exec .version State.reset) = some ([.tx q10], .await, 14, none) := by decide
theorem test_version_held : held (exec .version State.reset) = some (8, 0x0042, 0, .none) := by decide
theorem test_sensorInfo_sent : seen (exec .sensorInfo State.reset) =
    some ([.tx [0x43, 0, 0, 0, 0, 0, 0x9B, 0x0F]], .await, 74, none) := by decide
theorem test_meas_sent : seen (exec (.meas 0 2) State.reset) =
    some ([.tx [0x61, 0, 1, 0, 0, 0, 0x57, 0x93, 0x02], .done .sent], .idle, 0, none) := by decide
theorem test_meas_held : held (exec (.meas 0 2) State.reset) = some (9, 0x0061, 0, .sent) := by decide
theorem test_shutdown_sent : seen (exec .shutdown State.reset) =
    some ([.tx [0x62, 0, 0, 0, 0, 0, 0x20, 0x33], .done .sent], .idle, 0, none) := by decide

/-! ### Decoding responses: V10 to V52, V60 to V75 -/

/-- V10. -/
theorem test_response_answer : valueOf (decode mps (mps.catalog .answer) v10) =
    some (.decoded (okHeader "ANSWER" ++ [("CYCLE_COUNT", .u32 1234), ("CONC", .f32 0x41480000),
      ("ID", .enum (.gas .methane)), ("TEMP", .f32 0x41C80000), ("PRESSURE", .f32 0x42CAA666),
      ("REL_HUM", .f32 0x42200000), ("ABS_HUM", .f32 0x41180000)])) := by decide +kernel
/-- V10, the derived output. -/
theorem test_response_cycle : (valueOf (decode mps (mps.catalog .answer) v10)).bind (cycleUpdate (mps.catalog .answer)) =
    some 1234 := by decide +kernel
/-- V12. -/
theorem test_response_conc : valueOf (decode mps (mps.catalog .conc) v12) =
    some (.decoded (okHeader "CONC" ++ [("CONC", .f32 0x41480000)])) := by decide
/-- V15. -/
theorem test_response_ident :
    valueOf (decode mps (mps.catalog .ident) [0x04, 0x00, 0x04, 0x00, 0x4C, 0x12, 0x07, 0x00, 0x00, 0x00]) =
      some (.decoded (okHeader "ID" ++ [("ID", .enum (.unrecognised 7))])) := by decide
/-- V16: all 32 bits are compared. -/
theorem test_response_ident_wide :
    valueOf (decode mps (mps.catalog .ident) [0x04, 0x00, 0x04, 0x00, 0x51, 0x74, 0x00, 0x01, 0x00, 0x00]) =
      some (.decoded (okHeader "ID" ++ [("ID", .enum (.unrecognised 256))])) := by decide
/-- V17. -/
theorem test_response_temp :
    valueOf (decode mps (mps.catalog .temp) [0x21, 0x00, 0x04, 0x00, 0x04, 0x7F, 0x00, 0x00, 0xC8, 0x41]) =
      some (.decoded (okHeader "TEMP" ++ [("TEMP", .f32 0x41C80000)])) := by decide
/-- V18. -/
theorem test_response_pres :
    valueOf (decode mps (mps.catalog .pres) [0x22, 0x00, 0x04, 0x00, 0xBD, 0xE9, 0x66, 0xA6, 0xCA, 0x42]) =
      some (.decoded (okHeader "PRES" ++ [("PRESSURE", .f32 0x42CAA666)])) := by decide
/-- V19. -/
theorem test_response_relHum :
    valueOf (decode mps (mps.catalog .relHum) [0x23, 0x00, 0x04, 0x00, 0xF6, 0x08, 0x00, 0x00, 0x20, 0x42]) =
      some (.decoded (okHeader "REL_HUM" ++ [("REL_HUM", .f32 0x42200000)])) := by decide
/-- V20. -/
theorem test_response_absHum :
    valueOf (decode mps (mps.catalog .absHum) [0x24, 0x00, 0x04, 0x00, 0x53, 0xA8, 0x00, 0x00, 0x18, 0x41]) =
      some (.decoded (okHeader "ABS_HUM" ++ [("ABS_HUM", .f32 0x41180000)])) := by decide
/-- V22. -/
theorem test_response_status :
    valueOf (decode mps (mps.catalog .status) [0x41, 0x00, 0x01, 0x00, 0x60, 0x18, 0x31]) =
      some (.decoded (okHeader "STATUS" ++ [("SENSOR_STATUS", .enum (.status .hwCondenseCond))])) := by decide
/-- V23. -/
theorem test_response_status_unlisted :
    valueOf (decode mps (mps.catalog .status) [0x41, 0x00, 0x01, 0x00, 0x82, 0x2C, 0x99]) =
      some (.decoded (okHeader "STATUS" ++ [("SENSOR_STATUS", .enum (.unrecognised 0x99))])) := by decide
/-- V25: bytes print in decimal. -/
theorem test_response_version :
    valueOf (decode mps (mps.catalog .version)
      [0x42, 0x00, 0x08, 0x00, 0x9A, 0x2B, 0x12, 0x00, 0xFF, 0x0A, 0x10, 0x09, 0x03, 0x21]) =
      some (.decoded (okHeader "VERSION" ++ [("SW_VERSION", .text "18.0.255.10"), ("HW_VERSION", .text "16.9"),
        ("PROTOCOL_VERSION", .text "3.33")])) := by decide +kernel
/-- V43. -/
theorem test_response_sensorInfo : valueOf (decode mps (mps.catalog .sensorInfo) v43) =
    some (.decoded (okHeader "SENSOR_INFO" ++
      [("SERIAL_NUM", .str [0x53, 0x4E, 0x2D, 0x30, 0x30, 0x30, 0x31, 0x32, 0x33]), ("SENSOR_TYPE", .u32 5),
        ("CAL_DATE", .str [0x32, 0x30, 0x32, 0x34, 0x2D, 0x30, 0x31, 0x2D, 0x31, 0x35]),
        ("MFG_DATE", .str [0x32, 0x30, 0x32, 0x33, 0x2D, 0x31, 0x32, 0x2D, 0x30, 0x31])])) := by decide +kernel
/-- V44: an interior zero stays, a full field is not cut. -/
theorem test_strip_nul : stripNul [0x41, 0x42, 0x00, 0x43, 0x44, 0x00, 0x00] = [0x41, 0x42, 0x00, 0x43, 0x44] ∧
    stripNul [0x41, 0x35] = [0x41, 0x35] ∧ stripNul [0x00, 0x00] = [] := by decide
/-- V30. -/
theorem test_response_engData_0 :
    valueOf (decode mps (mps.catalog .engData) [0x09, 0x00, 0x04, 0x00, 0x5A, 0xCB, 0x00, 0x00, 0x00, 0x00]) =
      some (.decoded (okHeader "ENG_DATA" ++ [("LENGTH", .u32 0), ("DATA", .bytes [])])) := by decide +kernel
/-- V31. -/
theorem test_response_engData_1 : valueOf (decode mps (mps.catalog .engData) v31) =
    some (.decoded (okHeader "ENG_DATA" ++ [("LENGTH", .u32 1), ("DATA", .bytes [0xAB])])) := by decide
/-- V50: one payload bit flipped. -/
theorem test_response_bad_payload : valueOf (decode mps (mps.catalog .version)
    [0x42, 0x00, 0x08, 0x00, 0x34, 0x62, 0x05, 0x01, 0x00, 0x01, 0x01, 0x00, 0x02, 0x00]) = some .absent := by decide +kernel
/-- V52: another command's response. -/
theorem test_response_bad_echo : valueOf (decode mps (mps.catalog .answer) v12) = some .absent := by decide
/-- V60. -/
theorem test_response_bad_param :
    valueOf (decode mps (mps.catalog .answer) [0x01, 0x02, 0x00, 0x00, 0x33, 0x0F]) =
      some (.decoded [("CommandId", .text "ANSWER"), ("Status", .enum (.status .badParam))]) := by decide
/-- V62. -/
theorem test_response_unlisted_status :
    valueOf (decode mps (mps.catalog .conc) [0x03, 0x06, 0x00, 0x00, 0x75, 0x0D]) =
      some (.decoded [("CommandId", .text "CONC"), ("Status", .enum (.unrecognised 6))]) := by decide
/-- V64. -/
theorem test_response_engData_error :
    valueOf (decode mps (mps.catalog .engData) [0x09, 0x03, 0x04, 0x00, 0xD1, 0x7F, 0xFF, 0xFF, 0xFF, 0xFF]) =
      some (.decoded [("CommandId", .text "ENG_DATA"), ("Status", .enum (.status .exeFailed))]) := by decide +kernel
/-- V70, V71, V72, V73. -/
theorem test_response_too_long : faultOf (decode mps (mps.catalog .conc)
    [0x03, 0x00, 0x05, 0x00, 0xC8, 0x51, 0x00, 0x00, 0x48, 0x41, 0x00]) = some .lengthMismatch := by decide
theorem test_response_length_ignored : valueOf (decode mps (mps.catalog .conc)
    [0x03, 0x00, 0x00, 0x00, 0x76, 0x8C, 0x00, 0x00, 0x48, 0x41]) =
      some (.decoded (okHeader "CONC" ++ [("CONC", .f32 0x41480000)])) := by decide
theorem test_response_short : faultOf (decode mps (mps.catalog .conc) [0x03, 0x00, 0x04, 0x00, 0x1B]) =
    some .shortBuffer := by decide
/-- spec/42_frame_codec.md R120: a decoder called directly on five bytes; with six, the length check of R125. -/
theorem test_decoders_short : [Command.conc, .answer, .status, .version, .sensorInfo, .engData].all (fun c =>
    (payloadDecode mps (mps.catalog c) [0x03, 0x00, 0x04, 0x00, 0x1B] == .error .shortBuffer) &&
    (payloadDecode mps (mps.catalog c) [0x03, 0x00, 0x04, 0x00, 0x1B, 0x83] == .error .lengthMismatch)) = true := by decide
theorem test_response_request_only : faultOf (decode mps (mps.catalog .meas) v12) = some .noResponseExpected := by decide

/-! ### The other operations: X2, X4, X5, X7, X8, X10, X12, X13, X17, and the checksum register -/

/-- X2. -/
theorem test_recv_completes : seen (recv mps v24 (waiting 0x42 14 [])) =
    some ([.done (.decoded (okHeader "VERSION" ++ [("SW_VERSION", .text "4.1.0.1"), ("HW_VERSION", .text "1.0"),
      ("PROTOCOL_VERSION", .text "2.0")]))], .idle, 0, none) := by decide +kernel
/-- X4. -/
theorem test_issue_busy : nextOf (exec .answer (waiting 0x42 14 [])) =
    some { waiting 0x42 14 [] with fault := some .busy } := by decide
/-- X5. -/
theorem test_ioError : seen (ioError (waiting 0x42 14 [])) =
    some ([.done .transportError], .idle, 0, none) := by decide
/-- X7. -/
theorem test_recv_unexpected : nextOf (recv mps [0x61] State.reset) =
    some { State.reset with fault := some .unexpectedRx } := by decide
/-- X8: the tenth byte extends the count to 138. -/
theorem test_engData_extends : seen (recv mps [0x09, 0x00, 0x84, 0x00, 0x17, 0x92, 0x80, 0x00, 0x00, 0x00] (waiting 0x09 10 [])) =
    some ([], .await, 138, none) := by decide
/-- X10: the tenth byte is stored and counted, and the exchange stays open. -/
theorem test_engData_overflow : (nextOf (recv mps [0x09, 0x00, 0xCC, 0x00, 0x00, 0x00, 0xC8, 0x00, 0x00, 0x00]
    (waiting 0x09 10 []))).map (fun t => (t.fault, t.phase, t.rxlen, t.rxExpected)) =
    some (some .rxOverflow, .await, 10, 10) := by decide
/-- X12. -/
theorem test_engData_empty : seen (recv mps [0x09, 0x00, 0x04, 0x00, 0x5A, 0xCB, 0x00, 0x00, 0x00, 0x00] (waiting 0x09 10 [])) =
    some ([.done (.decoded (okHeader "ENG_DATA" ++ [("LENGTH", .u32 0), ("DATA", .bytes [])]))], .idle, 0, none) := by
  decide +kernel
/-- X13. -/
theorem test_recv_framing_error :
    seen (recv mps [0x42, 0x00, 0x08, 0x00, 0x34, 0x62, 0x05, 0x01, 0x00, 0x01, 0x01, 0x00, 0x02, 0x00] (waiting 0x42 14 [])) =
      some ([.framingError, .done .absent], .idle, 0, none) := by decide +kernel
/-- X14. -/
theorem test_reset_clears : nextOf (perform mps .reset (broken .busy [])) = some State.reset := by decide
/-- X17: a faulted unit has no step. -/
theorem test_faulted_stuck : stopOf (step (broken .rxOverflow [.ioError])) = some (.stuck .rxOverflow) := by decide
/-- P3: the operation before a RESET does nothing. -/
theorem test_faulted_reset : nextOf (step (broken .busy [.recv [0x04], .reset])) = some State.reset := by decide
/-- section 4: UnknownCommand and BadRequestPayload. -/
theorem test_issue_unknown : nextOf (perform mps (.issue 0x0101 []) State.reset) =
    some { State.reset with fault := some .unknownCommand } := by decide
theorem test_issue_payload : nextOf (perform mps (.issue 0x0042 [1, 2]) State.reset) =
    some { State.reset with fault := some .badRequestPayload } := by decide
/-- section 3: CRC_READ straight after RESET, and P5's last value. -/
theorem test_crcRead_unloaded : nextOf (perform mps .crcRead State.reset) =
    some { State.reset with fault := some .crcUnloaded } := by decide
theorem test_crcByte : nextOf (perform mps (.crcByte 0x41) (loaded 0xFFFF)) = some (loaded 0xB915) := by decide
/-- What the host reads after X1 (spec/10_state.md R32). -/
theorem test_readable : (nextOf (exec .version State.reset)).map readable = some (.await, 14, .none, none) := by decide
/-- spec/60_exceptions.md R214: the shutdown sequence is MEAS, then SHUTDOWN. -/
theorem test_shutdown_script : (shutdownScript mps 2).map (fun op => match op with
    | .issue id _ => some id
    | _ => none) = [some 0x61, some 0x62] := rfl
/-- A buffer write keeps the canonical form: writing zero removes the entry. -/
theorem test_memory_canonical : Memory.write (Memory.write [] 3 0x41) 3 0x00 = [] ∧
    Memory.writeBytes [] 0 [0x42, 0x00, 0x01] = [(0, 0x42), (2, 0x01)] := by decide

/-! ### Witnesses: the hypotheses of each statement, met together, each clause at a boundary of its range -/

/-- A response to CONC with status OK, one payload byte and its own checksum: its length is wrong. -/
def shortConc : List Byte := encodeIntoResponse mps 0x03 0x00 [0xAA]

/-- An EngData response with status OK whose length field says 3 where two bytes follow. -/
def wrongEngData : List Byte := encodeIntoResponse mps 0x09 0x00 [0x03, 0x00, 0x00, 0x00, 0xDE, 0xAD]

/-- Nine bytes of an EngData exchange with the given status and length, one byte before the extension. -/
def nineBytes (status length : Byte) : State := waiting 0x09 10 [0x09, status, 0, 0, 0, 0, length, 0, 0]

theorem test_witness_DecodedFramesHaveTheirHeader : mps.wf = true ∧
    decodeFrame mps [0x61, 0, 1, 0, 0, 0, 0x47, 0x91, 0x13, 0xAA] = .ok (.meas 1 3, [0xAA]) := ⟨mps_wf, rfl⟩

theorem test_witness_OtherFrames_truncated :
    mps.wf = true ∧ ([0x42, 0, 0, 0, 0, 0, 0x48] : List Byte).length < 8 := ⟨mps_wf, by decide⟩
theorem test_witness_OtherFrames_reserved : 8 ≤ ([0x42, 0, 0, 0, 1, 0, 0, 0] : List Byte).length ∧
    memRead16 [0x42, 0, 0, 0, 1, 0, 0, 0] 0 = some 0x42 ∧ memRead [0x42, 0, 0, 0, 1, 0, 0, 0] 2 2 = some 0 ∧
    memRead16 [0x42, 0, 0, 0, 1, 0, 0, 0] 4 = some 1 ∧ (1 : Word) ≠ 0 := by decide
theorem test_witness_OtherFrames_unknown : 8 ≤ ([0x42, 1, 0, 0, 0, 0, 0, 0] : List Byte).length ∧
    memRead16 [0x42, 1, 0, 0, 0, 0, 0, 0] 0 = some 0x0142 ∧
    memRead [0x42, 1, 0, 0, 0, 0, 0, 0] 2 2 = some 0 ∧ memRead16 [0x42, 1, 0, 0, 0, 0, 0, 0] 4 = some 0 ∧
    ∀ c, (mps.catalog c).id ≠ 0x0142 :=
  ⟨by decide, rfl, rfl, rfl, fun c => by cases c <;> decide⟩
theorem test_witness_OtherFrames_length : 8 ≤ ([0x61, 0, 0, 1, 0, 0, 0, 0] : List Byte).length ∧
    memRead16 [0x61, 0, 0, 1, 0, 0, 0, 0] 0 = some 0x61 ∧
    memRead [0x61, 0, 0, 1, 0, 0, 0, 0] 2 2 = some 256 ∧ memRead16 [0x61, 0, 0, 1, 0, 0, 0, 0] 4 = some 0 ∧
    (mps.catalog .meas).id = 0x61 ∧ 256 ≠ (mps.catalog .meas).reqLen := by decide

theorem test_witness_RequestIsSelfConsistent :
    mps.crcSeed = 0xFFFF ∧ (List.replicate 65535 (0 : Byte)).length ≤ 65535 ∧ ([] : List Byte).length ≤ 65535 :=
  ⟨rfl, Nat.le_of_eq List.length_replicate, Nat.zero_le _⟩

theorem test_witness_MemReadIsLittleEndian : ([1, 2, 3, 4, 5] : List Byte).length < 5 + 1 ∧
    ([1, 2, 3, 4, 5] : List Byte)[1]? = some 2 ∧ ([1, 2, 3, 4, 5] : List Byte)[1 + 1]? = some 3 ∧
    ([1, 2, 3, 4, 5] : List Byte)[1 + 2]? = some 4 ∧ ([1, 2, 3, 4, 5] : List Byte)[1 + 3]? = some 5 := by decide

theorem test_witness_MemWriteReadsBack :
    1 + 1 ≤ ([7, 8] : List Byte).length ∧ 0 + 2 ≤ ([7, 8] : List Byte).length := by decide

theorem test_witness_ChecksumIsLinear : ([1, 2, 3] : List Byte).length = ([0x10, 0x20, 0x30] : List Byte).length := rfl

theorem test_witness_SingleBitErrors : mps.polyOdd = true ∧ 0 < ([0x41] : List Byte).length ∧ 7 < 8 := by decide

theorem test_witness_ChecksumRegister_await :
    (waiting 0x42 14 []).fault = none ∧ (waiting 0x42 14 []).phase = .await := by decide
theorem test_witness_ChecksumRegister_loaded :
    (loaded 0).fault = none ∧ (loaded 0).phase = .idle ∧ (loaded 0).crc = some 0 := by decide
theorem test_witness_ChecksumRegister_empty :
    State.reset.fault = none ∧ State.reset.phase = .idle ∧ State.reset.crc = none := by decide

theorem test_witness_RegisterForm : (setInputs (crcScript 0xFFFF [0x41] ++ [.reset]) State.reset).fault = none ∧
    (setInputs (crcScript 0xFFFF [0x41] ++ [.reset]) State.reset).phase = .idle ∧
    (setInputs (crcScript 0xFFFF [0x41] ++ [.reset]) State.reset).inputs = crcScript 0xFFFF [0x41] ++ [.reset] :=
  ⟨rfl, rfl, rfl⟩

theorem test_witness_FrameOperations :
    (nextOf (perform mps .ioError (loaded 5))).isSome = true ∧ (∀ seed, HostOp.ioError ≠ .crcLoad seed) ∧
    (∀ b, HostOp.ioError ≠ .crcByte b) ∧ HostOp.ioError ≠ .reset := by
  refine ⟨rfl, ?_, ?_, ?_⟩ <;> intros <;> simp

theorem test_witness_Lookup_known : (mps.catalog .shutdown).id = 0x62 := rfl
theorem test_witness_Lookup_unknown : ∀ c, (mps.catalog c).id ≠ 0x0162 := fun c => by cases c <;> decide

theorem test_witness_ExpectedResponseBytes : (Command.shutdown, 0) ∈ [(Command.answer, 34), (.conc, 10), (.ident, 10),
    (.engData, 10), (.temp, 10), (.pres, 10), (.relHum, 10), (.absHum, 10), (.status, 7), (.version, 14),
    (.sensorInfo, 74), (.meas, 0), (.shutdown, 0)] := by decide

theorem test_witness_ExpectedResponseBytes_unknown : ∀ c, (mps.catalog c).id ≠ 0x0121 := fun c => by cases c <;> decide

theorem test_witness_SingleValue : (Command.absHum, "ABS_HUM") ∈ [(Command.conc, "CONC"), (.temp, "TEMP"),
    (.pres, "PRESSURE"), (.relHum, "REL_HUM"), (.absHum, "ABS_HUM")] := by decide

theorem test_witness_StatusLabels : ∀ l, (0x06 : Byte) ≠ mps.statusCode l := fun l => by cases l <;> decide
theorem test_witness_GasLabels : ∀ l, (256 : DWord) ≠ mps.gasCode l := fun l => by cases l <;> decide

theorem test_witness_Echo_valid : validateResponse mps v12 0x03 = .ok true := by rfl
theorem test_witness_Echo_wide : 256 ≤ (0x0100 : Word).toNat := by decide

theorem test_witness_ShortBuffers : ([0x03, 0x00, 0x04, 0x00, 0x1B] : List Byte).length < 6 ∧
    (mps.catalog .conc).expectsResponse = true ∧ (mps.catalog .conc).strategy ≠ .none ∧ 6 ≤ ([0x03, 0x00, 0x04, 0x00, 0x1B, 0x83] : List Byte).length := by decide

theorem test_witness_ChecksumDetects : mps.polyOdd = true ∧ 6 ≤ (List.replicate 6 (0 : Byte)).length ∧
    5 < (List.replicate 6 (0 : Byte)).length ∧ 7 < 8 := by decide

theorem test_witness_StatusGate : (mps.catalog .answer).expectsResponse = true ∧
    validateResponse mps [0x01, 0x02, 0x00, 0x00, 0x33, 0x0F] (mps.catalog .answer).id = .ok true ∧
    memRead8 [0x01, 0x02, 0x00, 0x00, 0x33, 0x0F] 1 = some 0x02 ∧ (0x02 : Byte) ≠ mps.statusCode .ok :=
  ⟨rfl, rfl, rfl, by decide⟩

theorem test_witness_DecodeTests_requestOnly : (mps.catalog .meas).expectsResponse = false := rfl
theorem test_witness_DecodeTests_framing : (mps.catalog .answer).expectsResponse = true ∧
    validateResponse mps v12 (mps.catalog .answer).id = .ok false := ⟨rfl, rfl⟩
theorem test_witness_DecodeTests_length : (mps.catalog .conc).expectsResponse = true ∧
    validateResponse mps shortConc (mps.catalog .conc).id = .ok true ∧
    memRead8 shortConc 1 = some (mps.statusCode .ok) ∧ Command.conc ≠ .engData ∧
    shortConc.length ≠ 6 + (mps.catalog .conc).respLen := ⟨rfl, rfl, rfl, by decide, by decide⟩
theorem test_witness_DecodeTests_engData : (mps.catalog .engData).expectsResponse = true ∧
    validateResponse mps wrongEngData (mps.catalog .engData).id = .ok true ∧
    memRead8 wrongEngData 1 = some (mps.statusCode .ok) ∧ memRead wrongEngData 6 4 = some 3 ∧
    wrongEngData.length ≠ 10 + 3 := ⟨rfl, rfl, rfl, rfl, by decide⟩

theorem test_witness_SensorInfoRoundTrip : (List.replicate 32 (0x41 : Byte)).length = 32 ∧
    (List.replicate 16 (0x42 : Byte)).length = 16 := by decide
theorem test_witness_EngDataRoundTrip : (List.replicate 128 (0x41 : Byte)).length < 2 ^ 32 := by
  rw [List.length_replicate]
  decide

theorem test_witness_CycleUpdate : ∃ r, decode mps (mps.catalog .answer) v10 = .ok r :=
  ok_of_valueOf (by decide +kernel)

theorem test_witness_quiescent : quiescent State.reset ∧ quiescent (loaded 5) := by decide

theorem test_witness_InstructionsChange : ∃ t u, exec .answer State.reset = .next t ∧ t.fault = none ∧
    exec .answer (waiting 0x42 14 []) = .next u ∧ u = faulted .busy (waiting 0x42 14 []) :=
  ⟨_, _, rfl, rfl, rfl, rfl⟩

theorem test_witness_IssueChecks : mps.wf = true ∧ quiescent State.reset ∧ (∀ c, (mps.catalog c).id ≠ 0x0002) ∧
    (mps.catalog .meas).id = 0x61 ∧ ([0x12, 0x34] : List Byte).length ≠ (mps.catalog .meas).reqLen ∧
    ([0x12] : List Byte).length = (mps.catalog .meas).reqLen :=
  ⟨mps_wf, by decide, fun c => by cases c <;> decide, rfl, by decide, rfl⟩

theorem test_witness_OnlyIssueTransmits : State.reset.txbuf.wf = true ∧
    ∃ t, perform mps (.issue 0x62 []) State.reset = .next t ∧ .tx [0x62, 0, 0, 0, 0, 0, 0x20, 0x33] ∈ t.outputs :=
  ⟨rfl, _, rfl, List.mem_cons_self⟩

/-- The first byte, the last byte of the buffer but one, and the tenth byte of a response that is not EngData's. -/
theorem test_witness_ReceivedByte_first : (waiting 0x42 14 []).fault = none ∧ (waiting 0x42 14 []).phase = .await ∧
    (waiting 0x42 14 []).rxlen < 138 ∧ (waiting 0x42 14 []).rxlen + 1 ≠ (waiting 0x42 14 []).rxExpected ∧
    (waiting 0x42 14 []).rxlen + 1 ≠ 10 := by decide
theorem test_witness_ReceivedByte_last : (waiting 0x09 138 (List.replicate 136 1)).rxlen < 138 ∧
    (waiting 0x09 138 (List.replicate 136 1)).rxlen + 1 ≠ 138 ∧
    (waiting 0x09 138 (List.replicate 136 1)).rxlen + 1 ≠ 10 := by
  simp [waiting]
theorem test_witness_ReceivedByte_tenth : (waiting 0x42 14 (v24.take 9)).rxlen + 1 = 10 ∧ Command.version ≠ .engData ∧
    (waiting 0x42 14 (v24.take 9)).cmd = (mps.catalog .version).id := by decide

theorem test_witness_Splitting :
    ∃ t, recv mps (v24.take 9) (waiting 0x42 14 []) = .next t ∧ t.fault = none := ⟨_, rfl, rfl⟩

/-- EngData's tenth byte, with an OK status and lengths 0, 1, 128 and 129: the values where the clauses meet. -/
theorem test_witness_EngDataExtends_ok : [0, 1, 128, 129].all (fun length : Byte =>
    let s := nineBytes 0 length
    decide (s.fault = none ∧ s.phase = .await ∧ s.cmd = (mps.catalog .engData).id ∧ s.rxExpected = 10 ∧ s.rxlen = 9 ∧
      memRead8 (received (pushRx 0 s)) 1 = some (mps.statusCode .ok) ∧
      memRead (received (pushRx 0 s)) 6 4 = some length.toNat)) = true := by decide +kernel
/-- EngData's tenth byte with a status that is not OK. -/
theorem test_witness_EngDataExtends_error : (nineBytes 3 200).fault = none ∧ (nineBytes 3 200).phase = .await ∧
    (nineBytes 3 200).cmd = (mps.catalog .engData).id ∧ (nineBytes 3 200).rxExpected = 10 ∧
    (nineBytes 3 200).rxlen = 9 ∧ memRead8 (received (pushRx 0 (nineBytes 3 200))) 1 = some 3 ∧
    memRead (received (pushRx 0 (nineBytes 3 200))) 6 4 = some 200 ∧ (3 : Byte) ≠ mps.statusCode .ok := by decide +kernel

/-- One byte before the completion of a fixed-length exchange. -/
def lastByteNext (s : State) (c : Command) : Bool :=
  decide (s.fault = none ∧ s.phase = .await ∧ s.rxlen < 138 ∧ s.rxlen + 1 = s.rxExpected ∧ s.cmd = (mps.catalog c).id ∧
    c ≠ .engData)

theorem test_witness_LastByte_decoded : lastByteNext (waiting 0x42 14 (v24.take 13)) .version = true ∧
    ∃ r, decode mps (mps.catalog .version) (received (pushRx 0x00 (waiting 0x42 14 (v24.take 13)))) = .ok r :=
  ⟨by decide, ok_of_valueOf (by decide +kernel)⟩
theorem test_witness_LastByte_absent : lastByteNext (waiting 0x42 14 (v24.take 13)) .version = true ∧
    decode mps (mps.catalog .version) (received (pushRx 0x01 (waiting 0x42 14 (v24.take 13)))) = .ok .absent := by
  decide +kernel
theorem test_witness_LastByte_fault : lastByteNext (waiting 0x03 7 (shortConc.take 6)) .conc = true ∧
    decode mps (mps.catalog .conc) (received (pushRx 0xAA (waiting 0x03 7 (shortConc.take 6)))) =
      .error .lengthMismatch := by decide +kernel
/-- The same of EngData's last byte, after its count was extended. -/
theorem test_witness_LastByte_engData : (waiting 0x09 11 (v31.take 10)).rxlen + 1 = 11 ∧
    (waiting 0x09 11 (v31.take 10)).cmd = (mps.catalog .engData).id ∧ (waiting 0x09 11 (v31.take 10)).rxlen + 1 ≠ 10 ∧
    ∃ r, decode mps (mps.catalog .engData) (received (pushRx 0xAB (waiting 0x09 11 (v31.take 10)))) = .ok r :=
  ⟨rfl, rfl, by decide, ok_of_valueOf (by decide +kernel)⟩

theorem test_witness_FixedLengthExchange : quiescent State.reset ∧ State.reset.rxbuf.wf = true ∧
    (mps.catalog (instrCommand .version)).expectsResponse = true ∧ instrCommand .version ≠ .engData ∧
    v24.length = 6 + (mps.catalog (instrCommand .version)).respLen := by decide

/-- The hypotheses on the bytes of an EngData exchange. -/
def engDataBytes (raw : List Byte) (status : Byte) (len : Nat) : Bool :=
  decide (memRead8 raw 1 = some status ∧ memRead raw 6 4 = some len ∧
    if status = mps.statusCode .ok then len ≤ 128 ∧ raw.length = 10 + len else raw.length = 10)

theorem test_witness_EngDataExchange : quiescent State.reset ∧ State.reset.rxbuf.wf = true ∧
    engDataBytes v31 0x00 1 = true := by decide
theorem test_witness_EngDataExchange_empty :
    engDataBytes [0x09, 0x00, 0x04, 0x00, 0x5A, 0xCB, 0x00, 0x00, 0x00, 0x00] 0x00 0 = true := by decide
theorem test_witness_EngDataExchange_longest :
    engDataBytes ([0x09, 0x00, 0x84, 0x00, 0x17, 0x92, 0x80, 0x00, 0x00, 0x00] ++ List.replicate 128 0x01) 0x00 128 =
      true := by decide +kernel
theorem test_witness_EngDataExchange_error :
    engDataBytes [0x09, 0x03, 0x04, 0x00, 0xD1, 0x7F, 0xFF, 0xFF, 0xFF, 0xFF] 0x03 4294967295 = true := by
  decide +kernel

theorem test_witness_FaultedUnit : (broken .busy []).fault = some .busy ∧ HostOp.ioError ≠ .reset := by decide

theorem test_witness_FaultingOperations : (∀ bytes, HostOp.issue 0x0002 [] ≠ .recv bytes) ∧
    ∃ t, perform mps (.issue 0x0002 []) State.reset = .next t ∧ t.fault = some .unknownCommand :=
  ⟨by simp, _, rfl, rfl⟩

theorem test_witness_OnlyReset_stuck : (broken .busy [.ioError]).fault = some .busy ∧
    HostOp.reset ∉ (broken .busy [.ioError]).inputs := by decide
theorem test_witness_OnlyReset_pending :
    (broken .busy [.recv [4], .reset, .ioError]).inputs = [.recv [4]] ++ .reset :: [.ioError] ∧
    HostOp.reset ∉ [HostOp.recv [4]] := by decide

theorem test_witness_StepRuns : (setInputs [.issue 0x61 [0x13], .ioError] State.reset).fault = none ∧
    (setInputs [.issue 0x61 [0x13], .ioError] State.reset).inputs = .issue 0x61 [0x13] :: [.ioError] ∧
    decodeRequest mps 0x61 [0x13] = .ok (.meas 1 3) := ⟨rfl, rfl, rfl⟩

theorem test_witness_StepPerforms : State.reset.fault = none ∧ State.reset.inputs = [] ∧
    (setInputs [.crcRead] State.reset).inputs = .crcRead :: [] := ⟨rfl, rfl, rfl⟩

theorem test_witness_OnlyTheHostEndsAWait : (waiting 0x42 14 []).phase = .await ∧
    ∃ t, perform mps .ioError (waiting 0x42 14 []) = .next t ∧ t.phase = .idle := ⟨rfl, _, rfl, rfl⟩

theorem test_witness_ResultIsStable : State.reset.phase = .idle ∧
    ∃ t, perform mps (.crcLoad 7) State.reset = .next t := ⟨rfl, _, rfl⟩

/-- An open, half-received VERSION exchange with its request in the transmit buffer. -/
def halfReceived : State := { waiting 0x42 14 [0x42, 0x00] with
  txbuf := Memory.writeBytes [] 0 q10, txlen := 8, inputs := [.recv [0x08]] }

/-- It meets the invariant, and has a next state. -/
theorem test_witness_Invariant : unitInvariant mps halfReceived := by
  refine ⟨⟨by decide, by decide⟩, .inr ⟨.version, rfl, by decide⟩, ⟨by decide, by decide, fun _ _ =>
    ⟨.version, by decide, rfl, rfl, by decide, rfl⟩⟩, fun fs h => by cases h⟩
theorem test_witness_Invariant_step : (nextOf (step halfReceived)).isSome = true := by decide

/-- The invariant and the host's contract together: all the bytes awaited; an ISSUE and the checksum operations in IDLE. -/
theorem test_witness_Contract_recv : unitInvariant mps halfReceived ∧ halfReceived.fault = none ∧
    hostAllowed mps halfReceived (.recv (List.replicate 12 0)) :=
  ⟨test_witness_Invariant, rfl, rfl, by decide, by decide⟩
theorem test_witness_Contract_idle : unitInvariant mps (loaded 5) ∧ (loaded 5).fault = none ∧
    hostAllowed mps (loaded 5) (.issue 0x61 [0x13]) ∧ hostAllowed mps (loaded 5) (.crcByte 1) ∧
    hostAllowed mps (loaded 5) .crcRead ∧ hostAllowed mps (loaded 5) (.crcLoad 1) := by
  refine ⟨⟨⟨by decide, by decide⟩, .inl ⟨rfl, rfl⟩, ⟨fun _ => rfl, by decide, fun h => by cases h⟩, fun fs h => by cases h⟩,
    rfl, ⟨rfl, .meas, rfl, rfl⟩, ⟨rfl, by simp [loaded]⟩, ⟨rfl, by simp [loaded]⟩, rfl⟩

/-- An ENG_DATA exchange one byte before its length field is complete: the contract allows the byte, and it raises
RxOverflow. -/
def longEngData : State := { nineBytes 0 200 with txbuf := Memory.writeBytes [] 0 (encodeInstr mps .engData), txlen := 8 }

theorem test_witness_Contract_overflow : unitInvariant mps longEngData ∧ longEngData.fault = none ∧
    hostAllowed mps longEngData (.recv [0]) ∧
    (nextOf (perform mps (.recv [0]) longEngData)).map (·.fault) = some (some .rxOverflow) := by
  refine ⟨⟨⟨by decide, by decide⟩, .inr ⟨.engData, rfl, by decide⟩, ⟨by decide, by decide, fun _ _ =>
    ⟨.engData, by decide, rfl, rfl, by decide, .inl rfl⟩⟩, fun fs h => by cases h⟩, rfl, ⟨rfl, by decide, by decide⟩, by decide⟩

/-- An open exchange of the unit whose CONC has another identifier, in a state that meets that unit's invariant. -/
def recodedExchange : State := { waiting 0x05 10 [0x05, 0x00] with
  txbuf := Memory.writeBytes [] 0 (encodeInstr recoded .conc), txlen := 8, inputs := [.recv [0x04]] }

theorem test_witness_EveryConfiguration : recoded.wf = true ∧ unitInvariant recoded recodedExchange ∧
    (nextOf (takeStep recoded recodedExchange)).isSome = true := by
  refine ⟨test_recoded_wf, ⟨⟨by decide, by decide⟩, .inr ⟨.conc, rfl, by decide⟩, ⟨by decide, by decide, fun _ _ =>
    ⟨.conc, by decide, rfl, rfl, by decide, rfl⟩⟩, fun fs h => by cases h⟩, by decide⟩

end Sys2Proof.Tests
end

section
/-! SUPPORT. The request frame the machine encodes and the count it awaits, in the unit of a well-formed configuration,
and what every payload decoder answers. -/

namespace Sys2Proof.Machine

/-- Writing the checksum into the zeroed image gives the table's frame (spec/42_frame_codec.md R115). -/
theorem encodeRequest_instr (k : Config) (i : Instr) :
    encodeRequest k (k.catalog (instrCommand i)).id (instrPayload i) = some (encodeInstr k i) := by
  have hlen : (instrPayload i).length ≤ 65535 := (instrPayload_le i).trans (by decide)
  rw [encodeRequest, if_pos hlen, requestImage_eq]
  rfl

/-- The machine encodes an instruction to its frame: the payload has the command's length (R140). -/
theorem encode_instr {k : Config} (h : k.wf = true) (i : Instr) :
    encode k (k.catalog (instrCommand i)) (instrPayload i) = .ok (encodeInstr k i) := by
  rw [encode, if_pos (instrPayload_reqLen h i), encodeRequest_instr]

/-- Every request frame fits the transmit buffer (R108 condition 6). -/
theorem encodeInstr_length_le_txCap {k : Config} (h : k.wf = true) (i : Instr) : (encodeInstr k i).length ≤ k.txCap := by
  have := (frames_fit h (instrCommand i)).1
  rw [encodeInstr_length, instrPayload_reqLen h]
  exact this

/-- The count of a command of the catalog (spec/42_frame_codec.md R126). -/
theorem expectedResponseBytes_wf {k : Config} (h : k.wf = true) (c : Command) :
    expectedResponseBytes k (k.catalog c).id =
      .ok (if (k.catalog c).expectsResponse then if c = .engData then 10 else respHdr + (k.catalog c).respLen else 0) := by
  simp only [expectedResponseBytes, lookup_wf h, strategy_engData h]
  split <;> rfl

/-! ### What a payload decoder names -/

/-- The fields of a payload decoder begin with those of the header, of the status byte received; the names of the rest are
the descriptor's, or those the rule of VERSION or of ENG_DATA gives (spec/43_command_variants.md R141 to R152). -/
def payloadShape (k : Config) (d : Descriptor) (raw : List Byte) (fs : Fields) : Prop :=
  ∃ status rest, memRead8 raw 1 = some status ∧ fs = headerFields k d status ++ rest ∧
    (rest.map Prod.fst = d.fields.map Prod.fst ∨
      rest.map Prod.fst = ["SW_VERSION", "HW_VERSION", "PROTOCOL_VERSION"] ∨ rest.map Prod.fst = ["LENGTH", "DATA"])

variable {k : Config} {d : Descriptor} {raw : List Byte} {fs : Fields}

theorem decodeFields_payloadShape (h : decodeFields k raw d = .ok fs) : payloadShape k d raw fs := by
  obtain ⟨-, status, vs, hs, hv, rfl⟩ := decodeFields_shape h
  exact ⟨status, vs, hs, rfl, .inl (fieldValues_names hv)⟩

/-- Relabelling a field that is not of the header keeps the shape (R142, R144, R150). -/
theorem payloadShape_reinterpret {name : String} (g : Value → Value) (hc : name ≠ "CommandId") (hs : name ≠ "Status")
    (h : payloadShape k d raw fs) : payloadShape k d raw (reinterpret name g fs) := by
  obtain ⟨status, rest, hr, rfl, hn⟩ := h
  refine ⟨status, reinterpret name g rest, hr, ?_, by rwa [reinterpret_names]⟩
  simp [reinterpret, headerFields, hc.symm, hs.symm]

theorem map_reinterpret_payloadShape {name : String} {g : Value → Value} (hc : name ≠ "CommandId") (hs : name ≠ "Status")
    (h : (decodeFields k raw d).map (reinterpret name g) = .ok fs) : payloadShape k d raw fs := by
  cases hf : decodeFields k raw d with
  | error f => rw [hf] at h; cases h
  | ok vs => rw [hf] at h; cases h; exact payloadShape_reinterpret g hc hs (decodeFields_payloadShape hf)

theorem decodeVersion_payloadShape (h : decodeVersion k d raw = .ok fs) : payloadShape k d raw fs := by
  replace h := (needHeader_ok h).2
  split at h
  · split at h
    · next status _ _ _ hs _ _ _ => cases h; exact ⟨status, _, hs, rfl, .inr (.inl rfl)⟩
    · cases h
  · cases h

theorem decodeEngData_payloadShape (h : decodeEngData k d raw = .ok fs) : payloadShape k d raw fs := by
  replace h := (needHeader_ok h).2
  split at h
  · next status _ hs _ =>
    split at h
    · cases h; exact ⟨status, _, hs, rfl, .inr (.inr rfl)⟩
    · cases h
  · cases h

/-- Every payload decoder answers fields of that shape (R141 step 3). -/
theorem payloadDecode_payloadShape (h : payloadDecode k d raw = .ok fs) : payloadShape k d raw fs := by
  unfold payloadDecode at h
  split at h
  case h_1 => exact decodeFields_payloadShape h
  case h_2 => exact map_reinterpret_payloadShape (by decide) (by decide) h
  case h_3 => exact map_reinterpret_payloadShape (by decide) (by decide) h
  case h_4 => exact map_reinterpret_payloadShape (by decide) (by decide) h
  case h_5 => exact decodeVersion_payloadShape h
  case h_6 => exact decodeFields_payloadShape h
  case h_7 => exact decodeEngData_payloadShape h
  case h_8 => cases h

end Sys2Proof.Machine
end

section
/-! SUPPORT. The checksum register outside its own operations (spec/10_state.md R21): neither an ISSUE nor a received byte
writes it. -/

namespace Sys2Proof.Machine

@[simp] theorem issued_crc (d : Descriptor) (n : Nat) (frame : List Byte) (s : State) :
    (issued d n frame s).crc = s.crc := by
  simp only [issued]
  split <;> rfl

/-- Completing an exchange leaves the checksum register alone. -/
@[simp] theorem complete_crc (k : Config) (s : State) : (complete k s).crc = s.crc := by
  obtain ⟨f, h⟩ | ⟨d, r, es, -, -, -, h⟩ := complete_cases k s <;> rw [h] <;> rfl

theorem extendStage_crc {k : Config} {s u : State} (h : extendStage k s = .ok u) : u.crc = s.crc := by
  obtain rfl | ⟨d, status, len, rfl, -⟩ := extendStage_ok h <;> rfl

theorem rxByte_crc {k : Config} {b : Byte} {s t : State} (h : rxByte k b s = .next t) : t.crc = s.crc := by
  obtain ⟨-, ⟨-, rfl⟩ | ⟨-, -, ⟨f, -, rfl⟩ | ⟨u, hu, rfl⟩⟩⟩ := rxByte_next h
  · rfl
  · rfl
  · have hc : u.crc = (pushRx b s).crc := extendStage_crc hu
    split <;> simp [hc]

theorem rxBytes_crc {k : Config} {bs : List Byte} {s t : State} (h : rxBytes k bs s = .next t) : t.crc = s.crc :=
  rxBytes_induction (P := fun u => u.crc = s.crc) (fun _ _ _ hu hb => (rxByte_crc hb).trans hu) bs rfl h

theorem runInstr_crc {k : Config} {i : Instr} {s t : State} (h : runInstr k i s = .next t) : t.crc = s.crc := by
  rw [runInstr_eq_issue] at h
  obtain ⟨-, ⟨f, rfl⟩ | ⟨-, frame, n, -, -, rfl⟩⟩ := issue_next h <;> simp

/-- Settles O17: ISSUE, RECV, IO_ERROR, CRC_READ and every fault have no update that writes the register. -/
theorem frameOperationsLeaveTheChecksumRegister : Obligations.FrameOperationsLeaveTheChecksumRegister := by
  intro k op s t h hload hbyte hreset
  obtain ⟨f, -, -, rfl⟩ | ⟨_, _, i, -, -, hi⟩ | ⟨bs, -, -, hr⟩ | ⟨-, -, rfl⟩ | ⟨hop, -⟩ | ⟨-, -, hcrc⟩ := perform_next h
  · rfl
  · exact runInstr_crc hi
  · exact rxBytes_crc hr
  · rfl
  · exact absurd hop hreset
  · obtain ⟨seed, hop, -⟩ | ⟨b, _, hop, -⟩ | ⟨c, -, -, rfl⟩ := hcrc
    · exact absurd hop (hload seed)
    · exact absurd hop (hbyte b)
    · rfl

end Sys2Proof.Machine
end

section
/-! SUPPORT. The invariant of the unit: the state after reset meets it, and so does the next state of every operation.
Within RECV it breaks for a moment, between storing a byte and completing the exchange; `receiving` is what holds there. -/

namespace Sys2Proof.Safety

open Sys2Proof.Machine

/-! ### Decoded results are well shaped (spec/10_state.md R27) -/

/-- The status alone is well shaped. -/
theorem wellShaped_headerFields (k : Config) (d : Descriptor) (status : Byte) : wellShaped (headerFields k d status) :=
  ⟨by simp [headerFields], d.name, statusLabel k status, [], rfl, fun _ => rfl⟩

/-- Under the status OK, the fields of a payload decoder are well shaped: no name is a header field's. -/
theorem wellShaped_of_payloadShape {k : Config} (hk : k.wf = true) {c : Command} {raw : List Byte} {fs : Fields}
    {status : Byte} (hs : memRead8 raw 1 = some status) (hok : statusOk k status = true)
    (h : payloadShape k (k.catalog c) raw fs) : wellShaped fs := by
  obtain ⟨status', rest, hs', rfl, hn⟩ := h
  obtain rfl : status = status' := Option.some.inj (hs.symm.trans hs')
  refine ⟨?_, (k.catalog c).name, statusLabel k status, rest, rfl,
    fun hne => absurd ((statusLabel_eq_ok k status).mpr hok) hne⟩
  change ("CommandId" :: "Status" :: rest.map Prod.fst).Nodup
  obtain hn | hn | hn := hn <;> rw [hn]
  · exact fieldNames_nodup hk c
  · decide
  · decide

/-- What `decode` answers for a command of the catalog is well shaped where it holds fields. -/
theorem wellShaped_of_decode {k : Config} (hk : k.wf = true) {c : Command} {raw : List Byte} {fs : Fields}
    (h : decode k (k.catalog c) raw = .ok (.decoded fs)) : wellShaped fs := by
  obtain ⟨-, ⟨-, hr⟩ | ⟨status, -, hs, ⟨-, hd⟩ | ⟨hok, vs, hp, hr⟩⟩⟩ := decode_ok h
  · cases hr
  · obtain ⟨_, status', d, -, -, -, hr⟩ := decodeStatusOnly_ok hd
    cases hr
    exact wellShaped_headerFields k d status'
  · cases hr
    exact wellShaped_of_payloadShape hk hs hok (payloadDecode_payloadShape hp)

/-! ### The invariant under the named updates of the state -/

theorem unitInvariant_emit {k : Config} {s : State} (es : List Output) (h : unitInvariant k s) :
    unitInvariant k (emit es s) := h

theorem unitInvariant_setInputs {k : Config} {s : State} (ops : List HostOp) (h : unitInvariant k s) :
    unitInvariant k (setInputs ops s) := h

theorem unitInvariant_setCrc {k : Config} {s : State} (v : Word) (h : unitInvariant k s) :
    unitInvariant k (setCrc v s) := h

/-- Settles O58: nothing is listed, nothing was issued, no exchange is open and there is no result. -/
theorem resetMeetsTheInvariant : Obligations.ResetMeetsTheInvariant := by
  intro k
  refine ⟨⟨⟨rfl, rfl, Nat.zero_le _⟩, rfl, rfl, Nat.zero_le _⟩, .inl ⟨rfl, rfl⟩, ⟨fun _ => rfl, Nat.zero_le _, nofun⟩, nofun⟩

/-- RESET gives the fields the invariant speaks of their values after reset (spec/70_reset_and_hazards.md R230). -/
theorem unitInvariant_resetUnit (k : Config) (s : State) : unitInvariant k (resetUnit s) := resetMeetsTheInvariant k

/-- A raised fault closes every claim about an open exchange (spec/60_exceptions.md R208). -/
theorem phaseConsistent_raiseFault {k : Config} {s : State} (f : UnitFault) (hidle : s.phase = .idle → s.rxExpected = 0)
    (hcap : s.rxExpected ≤ k.rxCap) : phaseConsistent k (raiseFault f s) := by
  refine ⟨hidle, hcap, fun _ hf => ?_⟩
  rw [raiseFault_fault] at hf
  simp at hf

theorem unitInvariant_raiseFault {k : Config} {s : State} (f : UnitFault) (h : unitInvariant k s) :
    unitInvariant k (raiseFault f s) := by
  obtain ⟨hbuf, hreq, ⟨hidle, hcap, -⟩, hres⟩ := h
  exact ⟨hbuf, hreq, phaseConsistent_raiseFault f hidle hcap, hres⟩

/-- Settling an exchange leaves IDLE with nothing awaited; only the result has to be well shaped. -/
theorem unitInvariant_settle {k : Config} {s : State} {r : Result} (hbuf : buffersFit k s) (hreq : requestHeld k s)
    (hr : ∀ fs, r = .decoded fs → wellShaped fs) : unitInvariant k (settle r s) := by
  refine ⟨hbuf, hreq.imp (fun h => ⟨h.1, rfl⟩) id, ⟨fun _ => rfl, Nat.zero_le _, nofun⟩, hr⟩

/-- The bytes received may be dropped where no exchange is open. -/
theorem unitInvariant_dropRx {k : Config} {s : State} (hp : s.phase = .idle) (h : unitInvariant k s) :
    unitInvariant k (dropRx s) := by
  obtain ⟨⟨htx, hwf, hin, -⟩, hreq, ⟨hidle, hcap, -⟩, hres⟩ := h
  refine ⟨⟨htx, hwf, hin, Nat.zero_le _⟩, hreq, ⟨hidle, hcap, fun ha => ?_⟩, hres⟩
  rw [dropRx_phase, hp] at ha
  cases ha

/-! ### ISSUE -/

/-- The transmit buffer takes the frame of an instruction (spec/44_exchange_sequencer.md R181). -/
theorem buffersFit_loadRequest {k : Config} (hk : k.wf = true) {s : State} (i : Instr) (id : Word) (h : buffersFit k s) :
    buffersFit k (loadRequest id (encodeInstr k i) s) := by
  obtain ⟨⟨hwf, hin, -⟩, hrwf, hrin, -⟩ := h
  have hfit := encodeInstr_length_le_txCap hk i
  exact ⟨⟨Memory.wf_writeBytes _ 0 hwf, Memory.within_writeBytes _ 0 (by omega) hin, hfit⟩, hrwf, hrin, Nat.zero_le _⟩

theorem sentFrame_loadRequest {k : Config} {s : State} (id : Word) (frame : List Byte) (h : buffersFit k s) :
    sentFrame (loadRequest id frame s) = frame :=
  Memory.readBytes_writeBytes frame 0 h.1.1

/-- The count of a command that expects a response fits the receive buffer (R108 condition 6). -/
theorem expected_le_rxCap {k : Config} (hk : k.wf = true) (c : Command) :
    (if c = .engData then 10 else respHdr + (k.catalog c).respLen) ≤ k.rxCap := by
  obtain ⟨-, hresp, heng⟩ := frames_fit hk c
  split
  · exact (Nat.le_add_right (respHdr + 4) k.engDataMaxL).trans heng
  · exact hresp

/-- An exchange just opened is open: nothing is received, and the count is the command's. -/
theorem unitInvariant_openExchange {k : Config} (hk : k.wf = true) {s : State} (i : Instr) (hbuf : buffersFit k s)
    (hcmd : s.cmd = (k.catalog (instrCommand i)).id) (hsent : sentFrame s = encodeInstr k i)
    (he : (k.catalog (instrCommand i)).expectsResponse = true) (hlen : s.rxlen = 0) :
    unitInvariant k (openExchange
      (if instrCommand i = .engData then 10 else respHdr + (k.catalog (instrCommand i)).respLen) s) := by
  refine ⟨hbuf, .inr ⟨i, hcmd, hsent⟩,
    ⟨nofun, expected_le_rxCap hk _, fun _ _ => ⟨instrCommand i, he, hcmd, rfl, ?_, ?_⟩⟩, nofun⟩
  · rw [openExchange_rxlen, openExchange_rxExpected, hlen]
    split
    · decide
    · exact Nat.add_pos_left (by decide) _
  · unfold awaits
    rw [openExchange_rxExpected]
    split
    · exact .inl rfl
    · rfl

/-- The state after an instruction's frame is handed to TX meets the invariant: an exchange is open, or a request-only
command is settled (R181, R183). -/
theorem unitInvariant_issued {k : Config} (hk : k.wf = true) {s : State} (i : Instr) {n : Nat}
    (hn : expectedResponseBytes k (k.catalog (instrCommand i)).id = .ok n) (hbuf : buffersFit k s) :
    unitInvariant k (issued (k.catalog (instrCommand i)) n (encodeInstr k i) s) := by
  have hbuf' := buffersFit_loadRequest hk i (k.catalog (instrCommand i)).id hbuf
  have hsent := sentFrame_loadRequest (k.catalog (instrCommand i)).id (encodeInstr k i) hbuf
  rw [expectedResponseBytes_wf hk] at hn
  simp only [issued]
  split
  · next he =>
    rw [if_pos he] at hn
    cases hn
    exact unitInvariant_openExchange hk i hbuf' rfl hsent he rfl
  · exact unitInvariant_emit _ (unitInvariant_settle hbuf' (.inr ⟨i, rfl, hsent⟩) nofun)

/-- Every instruction keeps the invariant. -/
theorem unitInvariant_runInstr {k : Config} (hk : k.wf = true) {i : Instr} {s t : State} (h : unitInvariant k s)
    (hr : runInstr k i s = .next t) : unitInvariant k t := by
  rw [runInstr_eq_issue] at hr
  obtain ⟨-, ⟨f, rfl⟩ | ⟨-, frame, n, hf, hn, rfl⟩⟩ := issue_next hr
  · exact unitInvariant_raiseFault f h
  · rw [encode_instr hk] at hf
    cases hf
    exact unitInvariant_issued hk i hn h.1

/-! ### RECV -/

/-- What holds of an open exchange after a byte is stored and before its completion is tested: the invariant, but the
last byte awaited may be there (spec/44_exchange_sequencer.md R184). -/
def receiving (k : Config) (s : State) : Prop :=
  buffersFit k s ∧ requestHeld k s ∧ s.phase = .await ∧ s.rxExpected ≤ k.rxCap ∧ s.result = .none ∧
  ∃ c : Command, (k.catalog c).expectsResponse = true ∧ s.cmd = (k.catalog c).id ∧ s.rxlen ≤ s.rxExpected ∧ awaits k c s

/-- A byte more leaves the awaited count right: the status and the length field stand before it. -/
theorem awaits_pushRx {k : Config} {c : Command} {s : State} (b : Byte) (hwf : s.rxbuf.wf = true) (h : awaits k c s) :
    awaits k c (pushRx b s) := by
  unfold awaits at h ⊢
  rw [received_pushRx b hwf, pushRx_rxExpected]
  split at h
  · next hc =>
    rw [if_pos hc]
    obtain h | ⟨status, len, hs, hok, hl, hle, hn⟩ := h
    · exact .inl h
    · exact .inr ⟨status, len, memRead8_append hs, hok, memRead_append hl, hle, hn⟩
  · next hc => rwa [if_neg hc]

theorem buffersFit_pushRx {k : Config} {s : State} (b : Byte) (hroom : s.rxlen < k.rxCap) (h : buffersFit k s) :
    buffersFit k (pushRx b s) :=
  ⟨h.1, Memory.wf_write _ b h.2.1, Memory.within_write b hroom h.2.2.1, hroom⟩

/-- Storing a byte of an open exchange. -/
theorem receiving_pushRx {k : Config} {s : State} (b : Byte) (h : unitInvariant k s) (hf : s.fault = none)
    (hp : s.phase = .await) (hroom : s.rxlen < k.rxCap) : receiving k (pushRx b s) := by
  obtain ⟨hbuf, hreq, ⟨-, hcap, hopen⟩, -⟩ := h
  obtain ⟨c, he, hcmd, hres, hlt, haw⟩ := hopen hp hf
  exact ⟨buffersFit_pushRx b hroom hbuf, hreq, hp, hcap, hres, c, he, hcmd, hlt, awaits_pushRx b hbuf.2.1 haw⟩

/-- EngData's extended count is that of its second stage and fits the receive buffer (R185). -/
theorem receiving_extendStage {k : Config} (hk : k.wf = true) {s u : State} (h : receiving k s)
    (hu : extendStage k s = .ok u) : receiving k u := by
  obtain rfl | ⟨d, status, len, rfl, hlen, -, hd, hstrat, hs, hok, hl, hle⟩ := extendStage_ok hu
  · exact h
  obtain ⟨hbuf, hreq, hp, -, hres, c, he, hcmd, -, -⟩ := h
  obtain ⟨c', hid, rfl⟩ := lookup_ok hd
  obtain rfl : c = c' := command_eq_of_id hk (hcmd.symm.trans hid.symm)
  obtain rfl : c = .engData := (strategy_engData hk c).mp hstrat
  have hcap : 6 + 4 + k.engDataMaxL ≤ k.rxCap := (frames_fit hk .engData).2.2
  refine ⟨hbuf, hreq, hp, ?_, hres, .engData, he, hcmd, ?_, .inr ⟨status, len, hs, hok, hl, hle, rfl⟩⟩
  · rw [setExpected_rxExpected]; omega
  · rw [setExpected_rxlen, setExpected_rxExpected, hlen]; omega

theorem resultShaped_of_receiving {k : Config} {s : State} (h : receiving k s) : resultShaped s := by
  obtain ⟨-, -, -, -, hres, -⟩ := h
  intro fs hfs
  rw [hres] at hfs
  cases hfs

/-- An exchange that has not got its last byte is still open. -/
theorem unitInvariant_of_receiving {k : Config} {s : State} (h : receiving k s) (hne : s.rxlen ≠ s.rxExpected) :
    unitInvariant k s := by
  have hshape := resultShaped_of_receiving h
  obtain ⟨hbuf, hreq, hp, hcap, hres, c, he, hcmd, hle, haw⟩ := h
  refine ⟨hbuf, hreq, ⟨fun hi => ?_, hcap, fun _ _ => ⟨c, he, hcmd, hres, by omega, haw⟩⟩, hshape⟩
  rw [hp] at hi
  cases hi

/-- A fault raised while a byte is taken leaves the exchange as it stands. -/
theorem unitInvariant_raiseFault_of_receiving {k : Config} {s : State} (f : UnitFault) (h : receiving k s) :
    unitInvariant k (raiseFault f s) := by
  have hshape := resultShaped_of_receiving h
  obtain ⟨hbuf, hreq, hp, hcap, -⟩ := h
  refine ⟨hbuf, hreq, phaseConsistent_raiseFault f (fun hi => ?_) hcap, hshape⟩
  rw [hp] at hi
  cases hi

/-- Completion ends the exchange with a well-shaped result, or raises a fault (R186). -/
theorem unitInvariant_complete {k : Config} (hk : k.wf = true) {s : State} (h : receiving k s) :
    unitInvariant k (complete k s) := by
  obtain ⟨f, hc⟩ | ⟨d, r, es, hd, hr, -, hc⟩ := complete_cases k s <;> rw [hc]
  · exact unitInvariant_raiseFault_of_receiving f h
  · obtain ⟨c, -, rfl⟩ := lookup_ok hd
    obtain ⟨hbuf, hreq, -⟩ := h
    refine unitInvariant_emit es (unitInvariant_settle hbuf hreq fun fs hfs => ?_)
    rw [hfs] at hr
    exact wellShaped_of_decode hk hr

theorem unitInvariant_rxByte {k : Config} (hk : k.wf = true) {b : Byte} {s t : State} (h : unitInvariant k s)
    (hb : rxByte k b s = .next t) : unitInvariant k t := by
  obtain ⟨hf, ⟨-, rfl⟩ | ⟨hp, hroom, hx⟩⟩ := rxByte_next hb
  · exact unitInvariant_raiseFault _ h
  · have hpush := receiving_pushRx b h hf hp hroom
    obtain ⟨f, -, rfl⟩ | ⟨u, hu, rfl⟩ := hx
    · exact unitInvariant_raiseFault_of_receiving f hpush
    · have hrec := receiving_extendStage hk hpush hu
      split
      · exact unitInvariant_complete hk hrec
      · next hne => exact unitInvariant_of_receiving hrec hne

/-! ### Operations and steps -/

/-- Every host operation keeps the invariant of the unit of a well-formed configuration. -/
theorem unitInvariant_perform {k : Config} (hk : k.wf = true) {op : HostOp} {s t : State} (h : unitInvariant k s)
    (hop : perform k op s = .next t) : unitInvariant k t := by
  obtain ⟨f, -, -, rfl⟩ | ⟨_, _, i, -, -, hi⟩ | ⟨bs, -, -, hr⟩ | ⟨-, -, rfl⟩ | ⟨-, rfl⟩ | ⟨-, -, hcrc⟩ := perform_next hop
  · exact unitInvariant_raiseFault f h
  · exact unitInvariant_runInstr hk h hi
  · exact rxBytes_induction (fun _ _ _ => unitInvariant_rxByte hk) bs h hr
  · obtain ⟨hbuf, hreq, -⟩ := h
    exact unitInvariant_emit _ (unitInvariant_dropRx rfl (unitInvariant_settle hbuf hreq nofun))
  · exact unitInvariant_resetUnit k s
  · obtain ⟨seed, -, rfl⟩ | ⟨b, c, -, -, rfl⟩ | ⟨c, -, -, rfl⟩ := hcrc
    · exact unitInvariant_setCrc seed h
    · exact unitInvariant_setCrc _ h
    · exact unitInvariant_emit _ h

/-- Settles O60: a step waits, performs an operation, or resets a faulted unit. -/
theorem everyConfigurationKeepsItsInvariant : Obligations.EveryConfigurationKeepsItsInvariant := by
  intro k s t hk h hstep
  obtain ⟨-, -, rfl⟩ | ⟨-, op, rest, -, hop⟩ | ⟨_, rest, -, -, rfl⟩ := takeStep_next hstep
  · exact h
  · exact unitInvariant_perform hk (unitInvariant_setInputs rest h) hop
  · exact unitInvariant_resetUnit k _

/-- Settles O57: the machine the host runs is the unit of `mps`, which is well formed. -/
theorem everyStepKeepsTheInvariant : Obligations.EveryStepKeepsTheInvariant := fun s t =>
  everyConfigurationKeepsItsInvariant mps s t mps_wf

end Sys2Proof.Safety
end

section
/-! SUPPORT. Reads and writes of byte sequences (spec/20_memory.md R41 to R43): a read takes the bytes one at a time, the
least significant first, and a write shows in single bytes. -/

namespace Sys2Proof.Machine

/-! ### Reads, byte by byte -/

/-- A read has no value exactly when it passes the end (R42). -/
theorem memRead_eq_none {buf : List Byte} {off n : Nat} : memRead buf off n = none ↔ buf.length < off + n := by
  simp [memRead, subseq]

theorem memRead_zero {buf : List Byte} {off : Nat} (h : off ≤ buf.length) : memRead buf off 0 = some 0 := by
  simp [memRead, subseq, h, leNat]

/-- The first byte of a read is the least significant (R41). -/
theorem memRead_succ {buf : List Byte} {off : Nat} {b : Byte} (n : Nat) (h : buf[off]? = some b) :
    memRead buf off (n + 1) = (memRead buf (off + 1) n).map (b.toNat + 256 * ·) := by
  obtain ⟨hlt, rfl⟩ := List.getElem?_eq_some_iff.mp h
  have hcond : off + (n + 1) ≤ buf.length ↔ off + 1 + n ≤ buf.length := by omega
  simp only [memRead, subseq, hcond, List.drop_eq_getElem_cons hlt, List.take_succ_cons]
  split <;> rfl

theorem memRead_one {buf : List Byte} {off : Nat} {b0 : Byte} (h0 : buf[off]? = some b0) :
    memRead buf off 1 = some b0.toNat := by
  obtain ⟨hlt, -⟩ := List.getElem?_eq_some_iff.mp h0
  rw [memRead_succ 0 h0, memRead_zero hlt]
  rfl

theorem memRead_two {buf : List Byte} {off : Nat} {b0 b1 : Byte} (h0 : buf[off]? = some b0)
    (h1 : buf[off + 1]? = some b1) : memRead buf off 2 = some (b0.toNat + 256 * b1.toNat) := by
  rw [memRead_succ 1 h0, memRead_one h1, Option.map_some]

/-- Four bytes are two, then two more with weight 65536. -/
theorem memRead_four {buf : List Byte} {off : Nat} {b0 b1 b2 b3 : Byte} (h0 : buf[off]? = some b0)
    (h1 : buf[off + 1]? = some b1) (h2 : buf[off + 2]? = some b2) (h3 : buf[off + 3]? = some b3) :
    memRead buf off 4 = some (b0.toNat + 256 * b1.toNat + 65536 * b2.toNat + 16777216 * b3.toNat) := by
  rw [memRead_succ 3 h0, memRead_succ 2 h1, memRead_two h2 h3, Option.map_some, Option.map_some, Option.some_inj]
  omega

/-- Settles O8: the sums of a byte-by-byte read, and the bound of `subseq`. -/
theorem memReadIsLittleEndian : Obligations.MemReadIsLittleEndian := fun _ _ =>
  ⟨fun _ => memRead_eq_none.mpr, fun _ => memRead_one, fun _ _ => memRead_two, fun _ _ _ _ => memRead_four⟩

theorem memRead8_of_getElem? {buf : List Byte} {off : Nat} {b : Byte} (h : buf[off]? = some b) :
    memRead8 buf off = some b := by
  simp [memRead8, memRead_one h]

/-! ### Writes, byte by byte -/

theorem memWrite8_getElem?_same {buf : List Byte} {off : Nat} (v : Byte) (h : off < buf.length) :
    (memWrite8 buf off v)[off]? = some v := List.getElem?_set_self h

theorem memWrite8_getElem?_other {off j : Nat} (buf : List Byte) (v : Byte) (h : j ≠ off) :
    (memWrite8 buf off v)[j]? = buf[j]? := List.getElem?_set_ne h.symm

@[simp] theorem memWrite8_length (buf : List Byte) (off : Nat) (v : Byte) :
    (memWrite8 buf off v).length = buf.length := List.length_set

/-- The second byte write leaves the first byte alone. -/
theorem memWrite16_getElem?_lo {buf : List Byte} {off : Nat} (v : Word) (h : off < buf.length) :
    (memWrite16 buf off v)[off]? = some (loByte v) := by
  rw [memWrite16, memWrite8_getElem?_other _ _ (by omega), memWrite8_getElem?_same _ h]

theorem memWrite16_getElem?_hi {buf : List Byte} {off : Nat} (v : Word) (h : off + 1 < buf.length) :
    (memWrite16 buf off v)[off + 1]? = some (hiByte v) := by
  rw [memWrite16, memWrite8_getElem?_same _ (by simpa using h)]

theorem memWrite16_getElem?_other {off j : Nat} (buf : List Byte) (v : Word) (h0 : j ≠ off) (h1 : j ≠ off + 1) :
    (memWrite16 buf off v)[j]? = buf[j]? := by
  rw [memWrite16, memWrite8_getElem?_other _ _ h1, memWrite8_getElem?_other _ _ h0]

/-! ### The two bytes of a 16-bit value (R41) -/

theorem loByte_toNat (v : Word) : (loByte v).toNat = v.toNat % 256 := by
  simp [loByte]

theorem hiByte_toNat (v : Word) : (hiByte v).toNat = v.toNat / 256 := by
  have := v.isLt
  simp [hiByte, Nat.shiftRight_eq_div_pow]
  omega

theorem loByte_add_hiByte (v : Word) : (loByte v).toNat + 256 * (hiByte v).toNat = v.toNat := by
  rw [loByte_toNat, hiByte_toNat, Nat.mod_add_div]

theorem memRead16_memWrite16 {buf : List Byte} {off : Nat} (v : Word) (h : off + 1 < buf.length) :
    memRead16 (memWrite16 buf off v) off = some v := by
  rw [memRead16, memRead_two (memWrite16_getElem?_lo v (by omega)) (memWrite16_getElem?_hi v h), loByte_add_hiByte]
  simp

/-- Settles O9: each byte write by its own law, and the two bytes of a word make it up. -/
theorem memWriteReadsBack : Obligations.MemWriteReadsBack := by
  intro buf off
  refine ⟨fun v h => ⟨?_, fun j => memWrite8_getElem?_other buf v⟩,
    fun v h => ⟨memRead16_memWrite16 v h, ?_, ?_, fun j => memWrite16_getElem?_other buf v⟩⟩
  · exact memRead8_of_getElem? (memWrite8_getElem?_same v h)
  · rw [memWrite16_getElem?_lo v (by omega), ← loByte_toNat, BitVec.ofNat_toNat, BitVec.setWidth_eq]
  · rw [memWrite16_getElem?_hi v h, ← hiByte_toNat, BitVec.ofNat_toNat, BitVec.setWidth_eq]

end Sys2Proof.Machine
end

section
/-! SUPPORT. Requests encoded and decoded (spec/30_encoding.md R61, R67, R78): a byte sequence decodes to an instruction
exactly when its header is that of the instruction's command and its bytes go on with the payload, and everything said of
the decoder follows from this. -/

namespace Sys2Proof.Machine

/-! ### The header of a command (R61, R63, R64) -/

/-- The three header fields a request of a command has: identifier, request payload length, zero. -/
def headerOf (k : Config) (c : Command) (bytes : List Byte) : Prop :=
  memRead16 bytes 0 = some (k.catalog c).id ∧ memRead bytes 2 2 = some (k.catalog c).reqLen ∧
    memRead16 bytes 4 = some 0

/-- A header meets a command's row of the opcode table exactly when its fields are the command's. -/
theorem headerBits_eq_opcodeMatch {k : Config} (hk : k.wf = true) (c : Command) :
    ∀ {bytes : List Byte}, reqHdr ≤ bytes.length → (headerBits bytes = opcodeMatch k c ↔ headerOf k c bytes)
  | b0 :: b1 :: b2 :: b3 :: b4 :: b5 :: tl, _ => by
    have hlen : BitVec.ofNat 16 (b2.toNat + 256 * b3.toNat) = BitVec.ofNat 16 (k.catalog c).reqLen ↔
        b2.toNat + 256 * b3.toNat = (k.catalog c).reqLen := by
      have hreq : (k.catalog c).reqLen ≤ 1 := by rw [catalog_reqLen hk]; cases c <;> decide
      have := b2.isLt
      have := b3.isLt
      simp only [← BitVec.toNat_inj, BitVec.toNat_ofNat]
      omega
    obtain ⟨hid, hreq, hzero⟩ := opcodeMatch_fields k c
    simp only [headerOf, headerBits_eq_iff, hid, hreq, hzero, hlen, memRead16_id, memRead_len, memRead16_reserved,
      Option.some_inj]

/-! ### The operands of a command (R67) -/

/-- A command's operands are taken from the payload of an instruction of that command, and from nothing else. -/
theorem takeOperands_eq_ok {c : Command} {bytes rest : List Byte} {i : Instr} :
    takeOperands c bytes = .ok (i, rest) ↔ instrCommand i = c ∧ bytes = instrPayload i ++ rest := by
  constructor
  · intro h
    unfold takeOperands at h
    split at h
    case h_13 => cases h
    case h_12 p _ => cases h; exact ⟨rfl, by rw [instrPayload, ← measByte_selectors]; rfl⟩
    all_goals cases h; exact ⟨rfl, rfl⟩
  · rintro ⟨rfl, rfl⟩
    cases i with
    | meas unit mode => simp [instrCommand, instrPayload, takeOperands, measUnit_measByte, measMode_measByte]
    | _ => rfl

/-! ### The decoder -/

theorem decodeFrame_of_short (k : Config) {bytes : List Byte} (h : bytes.length < reqHdr) :
    decodeFrame k bytes = .error .truncated := if_pos h

/-- A frame with the header of no command is refused. -/
theorem decodeFrame_of_no_header {k : Config} (hk : k.wf = true) {bytes : List Byte} (hlen : reqHdr ≤ bytes.length)
    (h : ∀ c, ¬ headerOf k c bytes) : decodeFrame k bytes = .error (rejectReason k bytes) := by
  have hrow : matchRow k (headerBits bytes) = none :=
    (matchRow_eq_none hk).mpr fun c hc => h c ((headerBits_eq_opcodeMatch hk c hlen).mp hc)
  rw [decodeFrame, if_neg (Nat.not_lt.mpr hlen), hrow]

/-- What decodes to an instruction: the header of its command, then its payload. -/
theorem decodeFrame_eq_ok {k : Config} (hk : k.wf = true) {bytes rest : List Byte} {i : Instr} :
    decodeFrame k bytes = .ok (i, rest) ↔
      reqHdr ≤ bytes.length ∧ headerOf k (instrCommand i) bytes ∧ bytes.drop reqHdr = instrPayload i ++ rest := by
  by_cases hlen : bytes.length < reqHdr
  · simp [decodeFrame_of_short k hlen, Nat.not_le.mpr hlen]
  have hle := Nat.not_lt.mp hlen
  rw [← headerBits_eq_opcodeMatch hk _ hle, ← matchRow_eq_some hk, decodeFrame, if_neg hlen]
  cases matchRow k (headerBits bytes) with
  | none => simp
  | some c => simp [takeOperands_eq_ok, hle, eq_comm (a := c)]

/-- An instruction's header and payload decode to it, whatever the two checksum bytes between them. -/
theorem decodeFrame_requestHead {k : Config} (hk : k.wf = true) (i : Instr) (b6 b7 : Byte) (rest : List Byte) :
    decodeFrame k (requestHead k i ++ [b6, b7] ++ instrPayload i ++ rest) = .ok (i, rest) := by
  have hlen : reqHdr ≤ (requestHead k i ++ [b6, b7] ++ instrPayload i ++ rest).length := by
    simp only [reqHdr, List.length_append, requestHead_length, List.length_cons, List.length_nil]
    omega
  refine (decodeFrame_eq_ok hk).mpr ⟨hlen, (headerBits_eq_opcodeMatch hk _ hlen).mp ?_, rfl⟩
  rw [List.append_assoc, List.append_assoc]
  exact (matchRow_eq_some hk).mp (matchRow_requestHead hk i _)

/-- Settles O1: the checksum bytes of the frame are not looked at. -/
theorem decodeOfEncodeGivesInstruction : Obligations.DecodeOfEncodeGivesInstruction := fun _ i rest hk =>
  decodeFrame_requestHead hk i _ _ rest

/-- Settles O3, by what decodes. -/
theorem decodedFramesHaveTheirHeader : Obligations.DecodedFramesHaveTheirHeader := by
  intro k bytes rest i hk h
  obtain ⟨-, ⟨hid, hreq, hzero⟩, hdrop⟩ := (decodeFrame_eq_ok hk).mp h
  exact ⟨hid, hreq, hzero, hdrop⟩

/-! ### Refusals (R63, R64, R73) -/

theorem rejectReason_reserved (k : Config) {bytes : List Byte} (h : memRead16 bytes 4 ≠ some 0) :
    rejectReason k bytes = .reservedNotZero := if_pos h

theorem rejectReason_unknown {k : Config} {bytes : List Byte} (hzero : memRead16 bytes 4 = some 0)
    (h : ∀ c, memRead16 bytes 0 ≠ some (k.catalog c).id) : rejectReason k bytes = .unknownCommand := by
  simp [rejectReason, hzero, h]

theorem rejectReason_known {k : Config} {bytes : List Byte} (hzero : memRead16 bytes 4 = some 0) {c : Command}
    (h : memRead16 bytes 0 = some (k.catalog c).id) : rejectReason k bytes = .badLength := by
  have hany : (Command.all.any fun c => memRead16 bytes 0 == some (k.catalog c).id) = true :=
    List.any_eq_true.mpr ⟨c, Command.mem_all c, by simp [h]⟩
  rw [rejectReason, if_neg (not_not_intro hzero), if_pos hany]

/-- Settles O4: in each case no command has the header, and the tests of `rejectReason` name the refusal. -/
theorem otherFramesAreRefusedByName : Obligations.OtherFramesAreRefusedByName := by
  refine fun k bytes hk => ⟨decodeFrame_of_short k, fun h8 id len reserved hid hlen hres => ⟨?_, ?_, ?_⟩⟩
  · intro hne
    have hres0 : memRead16 bytes 4 ≠ some 0 := by simpa [hres] using hne
    rw [decodeFrame_of_no_header hk h8 fun c ⟨_, _, hzero⟩ => hres0 hzero, rejectReason_reserved k hres0]
  · rintro rfl hunknown
    have hother (c : Command) : memRead16 bytes 0 ≠ some (k.catalog c).id := by simpa [hid] using (hunknown c).symm
    rw [decodeFrame_of_no_header hk h8 fun c ⟨hc, _, _⟩ => hother c hc, rejectReason_unknown hres hother]
  · rintro rfl c rfl hbad
    have hother (c' : Command) : ¬ headerOf k c' bytes := by
      rintro ⟨hc, hreq, -⟩
      obtain rfl := command_eq_of_id hk (Option.some_inj.mp (hc.symm.trans hid))
      exact hbad (Option.some_inj.mp (hlen.symm.trans hreq))
    rw [decodeFrame_of_no_header hk h8 hother, rejectReason_known hres hid]

/-- Settles O5: the payload has its command's length, and the checksum is written into the image it is computed of. -/
theorem machineEncodesTheTableFrame : Obligations.MachineEncodesTheTableFrame := fun _ i hk => encode_instr hk i

/-- Both selectors make up the byte, as a number (R70). -/
theorem measByte_toNat : ∀ u m : Nibble, (measByte u m).toNat = 16 * u.toNat + m.toNat := by decide

/-- Settles O7: the nibbles add up to the byte and are read back from it. -/
theorem measByteHoldsBothSelectors : Obligations.MeasByteHoldsBothSelectors :=
  ⟨fun u m => ⟨measByte_toNat u m, measUnit_measByte u m, measMode_measByte u m⟩, fun p => (measByte_selectors p).symm⟩

/-! ### The ISSUE of an instruction (spec/44_exchange_sequencer.md R181) -/

/-- The operands of an instruction's ISSUE decode to the instruction. -/
theorem decodeRequest_instr {k : Config} (hk : k.wf = true) (i : Instr) :
    decodeRequest k (k.catalog (instrCommand i)).id (instrPayload i) = .ok i := by
  have h := decodeFrame_requestHead hk i 0 0 []
  rw [List.append_nil, ← requestImage_eq] at h
  rw [decodeRequest, h]

theorem perform_issueOf {k : Config} (hk : k.wf = true) (i : Instr) (s : State) :
    perform k (issueOf k i) s = runInstr k i s := by
  rw [issueOf, perform, decodeRequest_instr hk]

/-- An image that decodes to an instruction stands for that instruction's ISSUE. -/
theorem issueOfImage_of_decodeFrame {k : Config} (hk : k.wf = true) {bytes rest : List Byte} {i : Instr}
    (h : decodeFrame k bytes = .ok (i, rest)) : issueOfImage bytes = some (issueOf k i) := by
  obtain ⟨-, ⟨hid, hreq, hzero⟩, hdrop⟩ := (decodeFrame_eq_ok hk).mp h
  have hlen : memRead16 bytes 2 = some (BitVec.ofNat 16 (instrPayload i).length) := by
    rw [memRead16, hreq, instrPayload_reqLen hk, Option.map_some]
  have hnat : (BitVec.ofNat 16 (instrPayload i).length).toNat = (instrPayload i).length := by
    have := instrPayload_le i
    rw [BitVec.toNat_ofNat]
    omega
  have hpay : ((List.range (instrPayload i).length).map fun j => (bytes[reqHdr + j]?).getD 0) = instrPayload i := by
    refine List.ext_getElem (by simp) fun j _ hj => ?_
    simp [← List.getElem?_drop, hdrop, List.getElem?_append_left hj, List.getElem?_eq_getElem hj]
  simp only [issueOfImage, hid, hlen, hzero, hnat, hpay, if_true, issueOf]

/-! ### Table words (R78) -/

/-- The bytes of a frame's table word are the frame, then zeros up to the longest request. -/
theorem tableImage_leNat (bytes : List Byte) :
    tableImage (8 * bytes.length) (leNat bytes) = bytes ++ List.replicate (9 - bytes.length) 0 := by
  have hcount : max 9 ((8 * bytes.length + 7) / 8) = bytes.length + (9 - bytes.length) := by omega
  rw [tableImage, Nat.mod_eq_of_lt (leNat_lt bytes), hcount, leBytes_leNat]

/-- With an instruction's ISSUE next, an unfaulted unit runs the instruction. -/
theorem takeStep_issueOf {k : Config} (hk : k.wf = true) (i : Instr) {s : State} (hf : s.fault = none)
    (rest : List HostOp) : takeStep k (setInputs (issueOf k i :: rest) s) = runInstr k i (setInputs rest s) := by
  simp only [takeStep, setInputs_fault, hf, serve, setInputs_inputs, perform_issueOf hk]
  rfl

/-- Settles O54: the placed image is the frame and zeros, which decodes, and so its ISSUE is the next operation. -/
theorem placedRequestRunsItsInstruction : Obligations.PlacedRequestRunsItsInstruction := by
  intro i s hf
  have hdecode := decodeOfEncodeGivesInstruction mps i (List.replicate (9 - (encodeInstr mps i).length) 0) mps_wf
  rw [← tableImage_leNat] at hdecode
  constructor
  · rw [decodeTableWord, hdecode]
  · rw [State.withFetchWord, placeRequest, issueOfImage_of_decodeFrame mps_wf hdecode, step, takeStep_issueOf mps_wf i hf,
      exec_eq_runInstr]
    rfl

end Sys2Proof.Machine
end

section
/-! SUPPORT. The checksum function (spec/40_checksum_unit.md R90 to R96): every step is linear over exclusive or, the two
forms of the byte step are one function, and under a polynomial with bit 0 set no step loses information. -/

namespace Sys2Proof.Machine

/-! ### The two bytes of a word, in place -/

/-- A word is its low byte and its high byte in place. -/
theorem loByte_xor_hiByte (c : Word) : (loByte c).setWidth 16 ^^^ (hiByte c).setWidth 16 <<< 8 = c := by
  refine BitVec.eq_of_getLsbD_eq fun i hi => ?_
  by_cases h : i < 8
  · simp [loByte, hiByte, h, hi]
  · have h8 : i - 8 < 8 := by omega
    have hadd : 8 + (i - 8) = i := by omega
    simp [loByte, hiByte, h, h8, hi, hadd]

/-- Shifted by a byte, the low byte is all that stays. -/
theorem loByte_shiftLeft (c : Word) : (loByte c).setWidth 16 <<< 8 = c <<< 8 := by
  refine BitVec.eq_of_getLsbD_eq fun i hi => ?_
  have h8 : i - 8 < 8 := by omega
  have h16 : i - 8 < 16 := by omega
  simp [loByte, h8, h16]

/-- A byte put in the high place is read back from it. -/
theorem hiByte_shiftLeft (b : Byte) : hiByte (b.setWidth 16 <<< 8) = b := by
  refine BitVec.eq_of_getLsbD_eq fun i hi => ?_
  have h16 : 8 + i < 16 := by omega
  simp [hiByte, hi, h16]

/-! ### The step of one bit (R92, R93) -/

section
variable (k : Config)

/-- Bit 15 chooses what is folded in after the shift. -/
theorem crcShift_eq_xor (r : Word) : crcShift k r = r <<< 1 ^^^ if r.msb then k.crcPoly else 0 := by
  unfold crcShift
  split
  · rfl
  · exact BitVec.xor_zero.symm

theorem crcShift_xor (a b : Word) : crcShift k (a ^^^ b) = crcShift k a ^^^ crcShift k b := by
  have hfold (x y : Bool) : (if (x ^^ y) then k.crcPoly else 0) =
      (if x then k.crcPoly else 0) ^^^ (if y then k.crcPoly else 0) := by
    cases x <;> cases y <;> simp
  simp only [crcShift_eq_xor, BitVec.msb_xor, BitVec.shiftLeft_xor_distrib, hfold]
  ac_rfl

theorem crcShifts_xor : ∀ (n : Nat) (a b : Word), crcShifts k n (a ^^^ b) = crcShifts k n a ^^^ crcShifts k n b
  | 0, _, _ => rfl
  | n + 1, a, b => by simp only [crcShifts, crcShift_xor, crcShifts_xor n]

/-- Where no bit reaches bit 15, the recurrence only shifts. -/
theorem crcShifts_of_lt : ∀ (n : Nat) {r : Word}, r.toNat * 2 ^ n < 2 ^ 16 → crcShifts k n r = r <<< n
  | 0, r, _ => (BitVec.shiftLeft_zero r).symm
  | n + 1, r, h => by
    rw [Nat.pow_succ', ← Nat.mul_assoc] at h
    have hlt : r.toNat * 2 < 2 ^ 16 := (Nat.le_mul_of_pos_right _ (Nat.two_pow_pos n)).trans_lt h
    have hmsb : r.msb = false := by rw [BitVec.msb_eq_false_iff_two_mul_lt]; omega
    have hnat : (r <<< 1).toNat = r.toNat * 2 := by
      rw [BitVec.toNat_shiftLeft, Nat.shiftLeft_eq, pow_one, Nat.mod_eq_of_lt hlt]
    have hshift : crcShift k r = r <<< 1 := by simp [crcShift, hmsb]
    rw [crcShifts, hshift, crcShifts_of_lt n (by rwa [hnat]), ← BitVec.shiftLeft_add, Nat.add_comm]

/-! ### The step of one byte (R91, R93) -/

/-- Eight shifts carry the low byte unchanged into the high place, and the rest of the register meets the data byte in
the table. -/
theorem crcStep_eq_crcStepBits (c : Word) (b : Byte) : crcStep k c b = crcStepBits k c b := by
  have hbytes : c ^^^ b.setWidth 16 <<< 8 = (loByte c).setWidth 16 ^^^ (hiByte c ^^^ b).setWidth 16 <<< 8 := by
    rw [BitVec.setWidth_xor, BitVec.shiftLeft_xor_distrib, ← BitVec.xor_assoc, loByte_xor_hiByte]
  have hlow : crcShifts k 8 ((loByte c).setWidth 16) = c <<< 8 := by
    rw [crcShifts_of_lt k 8, loByte_shiftLeft]
    rw [BitVec.toNat_setWidth_of_le (by decide)]
    have := (loByte c).isLt
    omega
  rw [crcStepBits, hbytes, crcShifts_xor, hlow]
  rfl

/-- Settles O11: the table holds the eight shifts of the high byte. -/
theorem tableFormEqualsBitSerialForm : Obligations.TableFormEqualsBitSerialForm := crcStep_eq_crcStepBits

theorem crcStep_xor (c d : Word) (a b : Byte) : crcStep k (c ^^^ d) (a ^^^ b) = crcStep k c a ^^^ crcStep k d b := by
  simp only [crcStep_eq_crcStepBits, crcStepBits, ← crcShifts_xor, BitVec.setWidth_xor, BitVec.shiftLeft_xor_distrib]
  congr 1
  ac_rfl

@[simp] theorem crcStep_zero : crcStep k 0 0 = 0 := by
  simpa using crcStep_xor k 0 0 0 0

/-! ### The laws of the checksum (R96) -/

@[simp] theorem crc16_nil (s : Word) : crc16 k s [] = s := rfl

@[simp] theorem crc16_cons (s : Word) (b : Byte) (bs : List Byte) : crc16 k s (b :: bs) = crc16 k (crcStep k s b) bs := rfl

theorem crc16_append (s : Word) (A B : List Byte) : crc16 k s (A ++ B) = crc16 k (crc16 k s A) B := List.foldl_append

theorem crc16_zeros : ∀ n : Nat, crc16 k 0 (List.replicate n 0) = 0
  | 0 => rfl
  | n + 1 => by rw [List.replicate_succ, crc16_cons, crcStep_zero, crc16_zeros n]

theorem crc16_xor : ∀ (s1 s2 : Word) (A B : List Byte), A.length = B.length →
    crc16 k s1 A ^^^ crc16 k s2 B = crc16 k (s1 ^^^ s2) (List.zipWith (fun a b => a ^^^ b) A B)
  | _, _, [], [], _ => rfl
  | s1, s2, a :: A, b :: B, h => by
    rw [crc16_cons, crc16_cons, crc16_xor _ _ A B (Nat.succ.inj h), ← crcStep_xor]
    rfl

end

/-- Settles O12: a fold over nothing, over an append, and over steps that each keep zero. -/
theorem checksumChainsAndKeepsZero : Obligations.ChecksumChainsAndKeepsZero := fun k =>
  ⟨crc16_nil k, crc16_append k, crc16_zeros k⟩

/-- Settles O13, byte by byte from the linearity of a step. -/
theorem checksumIsLinear : Obligations.ChecksumIsLinear := crc16_xor

/-! ### A polynomial with bit 0 set loses no information (R96 law 5) -/

section
variable {k : Config}

/-- The polynomial's bit 0 records in the new bit 0 whether it was folded in. -/
theorem crcShift_getLsbD_zero (hodd : k.polyOdd = true) (r : Word) : (crcShift k r).getLsbD 0 = r.msb := by
  rw [Config.polyOdd] at hodd
  cases hr : r.msb <;> simp [crcShift, hr, hodd]

theorem crcShift_injective (hodd : k.polyOdd = true) : Function.Injective (crcShift k) := by
  intro a b h
  have hmsb : a.msb = b.msb := by rw [← crcShift_getLsbD_zero hodd, h, crcShift_getLsbD_zero hodd]
  have hshl : a <<< 1 = b <<< 1 := by
    rw [crcShift_eq_xor, crcShift_eq_xor, hmsb] at h
    exact (BitVec.xor_left_inj _).mp h
  refine BitVec.eq_of_getLsbD_eq fun i hi => ?_
  obtain rfl | hlt : i = 15 ∨ i + 1 < 16 := by omega
  · exact hmsb
  · simpa [hlt, BitVec.getLsbD_eq_getElem hi] using congrArg (BitVec.getLsbD · (i + 1)) hshl

theorem crcShifts_injective (hodd : k.polyOdd = true) : ∀ n, Function.Injective (crcShifts k n)
  | 0 => Function.injective_id
  | n + 1 => (crcShifts_injective hodd n).comp (crcShift_injective hodd)

/-- Different registers stay different under the same data byte. -/
theorem crcStep_injective_register (hodd : k.polyOdd = true) (b : Byte) : Function.Injective (crcStep k · b) := by
  intro c d h
  simp only [crcStep_eq_crcStepBits] at h
  exact (BitVec.xor_left_inj _).mp (crcShifts_injective hodd 8 h)

/-- Different data bytes lead one register to different ones. -/
theorem crcStep_injective_byte (hodd : k.polyOdd = true) (c : Word) : Function.Injective (crcStep k c) := by
  intro a b h
  rw [crcStep_eq_crcStepBits, crcStep_eq_crcStepBits] at h
  have hshl := (BitVec.xor_right_inj _).mp (crcShifts_injective hodd 8 h)
  rw [← hiByte_shiftLeft a, hshl, hiByte_shiftLeft]

theorem crc16_injective_seed (hodd : k.polyOdd = true) : ∀ A : List Byte, Function.Injective (crc16 k · A)
  | [] => Function.injective_id
  | b :: A => (crc16_injective_seed hodd A).comp (crcStep_injective_register hodd b)

end

theorem xor_twoPow_ne (b : Byte) {j : Nat} (hj : j < 8) : b ^^^ BitVec.twoPow 8 j ≠ b := by
  intro h
  simpa [hj] using congrArg (BitVec.getLsbD · j) h

/-- Settles O14: up to the flipped byte the registers agree, there they part, and after it they stay apart. -/
theorem singleBitErrorsChangeTheChecksum : Obligations.SingleBitErrorsChangeTheChecksum := by
  intro k s A p j hodd hp hj
  induction A generalizing s p with
  | nil => exact absurd hp (Nat.not_lt_zero p)
  | cons a A ih =>
    cases p with
    | zero => exact fun h => xor_twoPow_ne a hj (crcStep_injective_byte hodd s (crc16_injective_seed hodd A h))
    | succ p => exact ih (crcStep k s a) p (Nat.lt_of_succ_lt_succ hp)

end Sys2Proof.Machine
end

section
/-! SUPPORT. The checksum register (spec/40_checksum_unit.md R97): its three operations, and the register form of the
checksum as the machine runs it. -/

namespace Sys2Proof.Machine

/-! ### The three operations in an unfaulted unit -/

section
variable {s : State} {c : Word} (k : Config)

theorem perform_crcLoad_idle (seed : Word) (hf : s.fault = none) (hp : s.phase = .idle) :
    perform k (.crcLoad seed) s = .next (setCrc seed s) := guardIdle_of_idle hf hp _

theorem perform_crcByte_loaded (b : Byte) (hf : s.fault = none) (hp : s.phase = .idle) (hc : s.crc = some c) :
    perform k (.crcByte b) s = .next (setCrc (crcStep k c b) s) := by
  rw [perform, crcByte, guardIdle_of_idle hf hp, hc]

theorem perform_crcRead_loaded (hf : s.fault = none) (hp : s.phase = .idle) (hc : s.crc = some c) :
    perform k .crcRead s = .next (emit [.crcValue c] s) := by
  rw [perform, crcRead, guardIdle_of_idle hf hp, hc]

theorem perform_crcByte_unloaded (b : Byte) (hf : s.fault = none) (hp : s.phase = .idle) (hc : s.crc = none) :
    perform k (.crcByte b) s = .next (raiseFault .crcUnloaded s) := by
  rw [perform, crcByte, guardIdle_of_idle hf hp, hc]

theorem perform_crcRead_unloaded (hf : s.fault = none) (hp : s.phase = .idle) (hc : s.crc = none) :
    perform k .crcRead s = .next (raiseFault .crcUnloaded s) := by
  rw [perform, crcRead, guardIdle_of_idle hf hp, hc]

end

/-- Settles O15: in AWAIT the guard of all three answers, and in IDLE each has its one effect. -/
theorem checksumRegisterOperations : Obligations.ChecksumRegisterOperations := by
  intro k s seed b hf
  have hfaulted (f : UnitFault) : raiseFault f s = Safety.faulted f s := raiseFault_of_none s f hf
  refine ⟨fun hp op hop => ?_, perform_crcLoad_idle k seed hf, fun hp c hc => ?_, fun hp hc => ?_⟩
  · rw [← hfaulted]
    simp only [List.mem_cons, List.not_mem_nil, or_false] at hop
    obtain rfl | rfl | rfl := hop <;> exact guardIdle_of_await hf hp _
  · exact ⟨perform_crcByte_loaded k b hf hp hc, perform_crcRead_loaded k hf hp hc⟩
  · rw [← hfaulted]
    exact ⟨perform_crcByte_unloaded k b hf hp hc, perform_crcRead_unloaded k hf hp hc⟩

/-! ### Running a queue of operations -/

theorem hostRun_succ_of_step (M : Host.Core) {s t : M.State} (n : Nat) (h : M.step s = .next t) :
    M.run (n + 1) s = M.run n t := by
  rw [Host.Core.run, h]

/-- An unfaulted unit's step performs the operation at the head of its queue. -/
theorem takeStep_setInputs_cons (k : Config) {s : State} (hf : s.fault = none) (op : HostOp) (rest : List HostOp) :
    takeStep k (setInputs (op :: rest) s) = perform k op (setInputs rest s) := by
  simp only [takeStep, setInputs_fault, hf, serve, setInputs_inputs]
  rfl

/-- An operation that has a next state takes one step of the run. -/
theorem run_succ_of_perform {s t : State} {op : HostOp} {rest : List HostOp} (n : Nat) (hf : s.fault = none)
    (h : perform mps op (setInputs rest s) = .next t) :
    Safety.run (n + 1) (setInputs (op :: rest) s) = Safety.run n t :=
  hostRun_succ_of_step core n ((takeStep_setInputs_cons mps hf op rest).trans h)

/-- The bytes at the head of the queue are folded into the register, one step each. -/
theorem run_crcBytes {s : State} (n : Nat) (hf : s.fault = none) (hp : s.phase = .idle) (rest : List HostOp) :
    ∀ (c : Word) (bytes : List Byte), Safety.run (bytes.length + n) (setInputs (bytes.map .crcByte ++ rest) (setCrc c s)) =
      Safety.run n (setInputs rest (setCrc (crc16 mps c bytes) s))
  | c, [] => by rw [List.length_nil, Nat.zero_add]; rfl
  | c, b :: bytes => by
    rw [List.length_cons, Nat.add_right_comm, List.map_cons, List.cons_append,
      run_succ_of_perform (s := setCrc c s) _ hf (perform_crcByte_loaded mps b hf hp rfl)]
    exact run_crcBytes n hf hp rest (crcStep mps c b) bytes

/-- Settles O16: one step loads the seed, one folds each byte in, and one puts the value out. -/
theorem registerFormComputesTheChecksum : Obligations.RegisterFormComputesTheChecksum := by
  intro s seed bytes rest hf hp hin
  have hqueue : s.inputs = .crcLoad seed :: (bytes.map .crcByte ++ .crcRead :: rest) := by simp [hin, crcScript]
  calc Safety.run (bytes.length + 2) s
      = Safety.run (bytes.length + 2) (setInputs s.inputs s) := rfl
    _ = Safety.run (bytes.length + 1) (setInputs (bytes.map .crcByte ++ .crcRead :: rest) (setCrc seed s)) := by
        rw [hqueue]
        exact run_succ_of_perform _ hf (perform_crcLoad_idle mps seed hf hp)
    _ = Safety.run 1 (setInputs (.crcRead :: rest) (setCrc (crc16 mps seed bytes) s)) := run_crcBytes 1 hf hp _ seed bytes
    _ = .next (emit [.crcValue (crc16 mps seed bytes)] (setInputs rest (setCrc (crc16 mps seed bytes) s))) :=
        run_succ_of_perform 0 hf (perform_crcRead_loaded mps hf hp rfl)

end Sys2Proof.Machine
end

section
/-! SUPPORT. Lookup outside the catalog (spec/41_command_catalog.md R107), for every configuration. -/

namespace Sys2Proof.Machine

/-- An identifier names no command exactly when it differs from every identifier of the catalog. -/
theorem commandOf_eq_none {k : Config} {id : Word} : commandOf k id = none ↔ ∀ c, (k.catalog c).id ≠ id := by
  simp [commandOf, Command.mem_all]

/-- The failure mode of lookup, "unknown identifier". -/
theorem lookup_unknown {k : Config} {id : Word} (h : ∀ c, (k.catalog c).id ≠ id) :
    lookup k id = .error .unknownCommand := by
  rw [lookup, commandOf_eq_none.mpr h]

/-- Settles O18: the identifiers of the default catalog are distinct, and no other identifier names a command. -/
theorem lookupComparesAllSixteenBits : Obligations.LookupComparesAllSixteenBits := by
  refine fun id => ⟨?_, lookup_unknown⟩
  rintro c rfl
  exact lookup_id c

end Sys2Proof.Machine
end

section
/-! SUPPORT. More laws of byte sequences (spec/20_memory.md R42, R43), read by read: a byte read is the byte, a 16-bit
read is its two bytes, a 16-bit write forgets what stood there, and reads of a concatenation are reads of its parts. -/

namespace Sys2Proof.Machine

open Sys2Proof.Safety

/-! ### Reads -/

theorem memRead8_eq_getElem? (buf : List Byte) (off : Nat) : memRead8 buf off = buf[off]? := by
  cases h : buf[off]? with
  | some b => exact memRead8_of_getElem? h
  | none =>
    rw [List.getElem?_eq_none_iff] at h
    rw [memRead8, memRead_eq_none.mpr (Nat.lt_succ_of_le h), Option.map_none]

/-- A 16-bit read gives a value exactly when its two bytes stand there, low byte first (R41). -/
theorem memRead16_eq_some {buf : List Byte} {off : Nat} {v : Word} :
    memRead16 buf off = some v ↔ buf[off]? = some (loByte v) ∧ buf[off + 1]? = some (hiByte v) := by
  constructor
  · intro h
    have hlen : off + 1 < buf.length := by
      by_contra hlt
      simp [memRead16, memRead_eq_none.mpr (show buf.length < off + 2 by omega)] at h
    have h0 := List.getElem?_eq_getElem (show off < buf.length by omega)
    have h1 := List.getElem?_eq_getElem hlen
    rw [memRead16, memRead_two h0 h1, Option.map_some, Option.some_inj] at h
    have := buf[off].isLt
    have := buf[off + 1].isLt
    have hv := congrArg BitVec.toNat h
    rw [BitVec.toNat_ofNat] at hv
    rw [h0, h1, Option.some_inj, Option.some_inj, ← BitVec.toNat_inj, ← BitVec.toNat_inj, loByte_toNat, hiByte_toNat]
    omega
  · rintro ⟨h0, h1⟩
    rw [memRead16, memRead_two h0 h1, loByte_add_hiByte, Option.map_some, BitVec.ofNat_toNat, BitVec.setWidth_eq]

theorem memRead16_of_lt {buf : List Byte} {off : Nat} (h : buf.length < off + 2) : memRead16 buf off = none := by
  rw [memRead16, memRead_eq_none.mpr h, Option.map_none]

/-! ### 16-bit writes -/

@[simp] theorem memWrite16_length (buf : List Byte) (off : Nat) (v : Word) :
    (memWrite16 buf off v).length = buf.length := by
  simp [memWrite16]

/-- What a 16-bit write leaves depends on the other bytes alone. -/
theorem memWrite16_congr {A B : List Byte} {off : Nat} (v : Word) (hA : off + 1 < A.length) (hB : off + 1 < B.length)
    (h : ∀ j, j ≠ off → j ≠ off + 1 → A[j]? = B[j]?) : memWrite16 A off v = memWrite16 B off v := by
  refine List.ext_getElem? fun j => ?_
  by_cases h0 : j = off
  · rw [h0, memWrite16_getElem?_lo v (by omega), memWrite16_getElem?_lo v (by omega)]
  by_cases h1 : j = off + 1
  · rw [h1, memWrite16_getElem?_hi v hA, memWrite16_getElem?_hi v hB]
  rw [memWrite16_getElem?_other A v h0 h1, memWrite16_getElem?_other B v h0 h1, h j h0 h1]

theorem memWrite16_memWrite16 {buf : List Byte} {off : Nat} (u v : Word) (h : off + 1 < buf.length) :
    memWrite16 (memWrite16 buf off u) off v = memWrite16 buf off v :=
  memWrite16_congr v (by simpa using h) h fun _ => memWrite16_getElem?_other buf u

/-! ### One flipped bit -/

@[simp] theorem flipBit_length (b : List Byte) (p j : Nat) : (flipBit b p j).length = b.length := by
  simp [flipBit]

theorem flipBit_getElem?_same (b : List Byte) (p j : Nat) :
    (flipBit b p j)[p]? = b[p]?.map fun x => x ^^^ BitVec.twoPow 8 j := by
  simp [flipBit]

theorem flipBit_getElem?_other (b : List Byte) {p i : Nat} (j : Nat) (h : i ≠ p) : (flipBit b p j)[i]? = b[i]? := by
  simp [flipBit, h.symm]

/-- A bit flipped inside the two bytes of a write is written over. -/
theorem memWrite16_flipBit_inside {buf : List Byte} {off p : Nat} (j : Nat) (v : Word) (h : off + 1 < buf.length)
    (hp : p = off ∨ p = off + 1) : memWrite16 (flipBit buf p j) off v = memWrite16 buf off v :=
  memWrite16_congr v (by simpa using h) h fun _ h0 h1 => flipBit_getElem?_other buf j (by omega)

/-- A bit flipped outside the two bytes of a write stays flipped. -/
theorem memWrite16_flipBit_outside {buf : List Byte} {off p : Nat} (j : Nat) (v : Word) (h : off + 1 < buf.length)
    (h0 : p ≠ off) (h1 : p ≠ off + 1) : memWrite16 (flipBit buf p j) off v = flipBit (memWrite16 buf off v) p j := by
  have hflip : off + 1 < (flipBit buf p j).length := by simpa using h
  refine List.ext_getElem? fun i => ?_
  by_cases hi0 : i = off
  · rw [hi0, flipBit_getElem?_other _ j h0.symm, memWrite16_getElem?_lo v (by omega),
      memWrite16_getElem?_lo v (by omega)]
  by_cases hi1 : i = off + 1
  · rw [hi1, flipBit_getElem?_other _ j h1.symm, memWrite16_getElem?_hi v hflip, memWrite16_getElem?_hi v h]
  rw [memWrite16_getElem?_other _ v hi0 hi1]
  by_cases hip : i = p
  · rw [hip, flipBit_getElem?_same, flipBit_getElem?_same, memWrite16_getElem?_other buf v h0 h1]
  · rw [flipBit_getElem?_other _ j hip, flipBit_getElem?_other _ j hip, memWrite16_getElem?_other buf v hi0 hi1]

end Sys2Proof.Machine
end

section
/-! SUPPORT. The request codec (spec/42_frame_codec.md R115, R128) and the count of a response (R126). -/

namespace Sys2Proof.Machine

/-- The frame of a request, its checksum bytes written out (R115). -/
theorem encodeRequest_eq_some (k : Config) (id : Word) {p : List Byte} (h : p.length ≤ 65535) :
    encodeRequest k id p =
      some ([loByte id, hiByte id, loByte (BitVec.ofNat 16 p.length), hiByte (BitVec.ofNat 16 p.length), 0, 0,
        loByte (crc16 k k.crcSeed (requestImage id p)), hiByte (crc16 k k.crcSeed (requestImage id p))] ++ p) :=
  if_pos h

/-- Settles O6: the header is read back field by field, and the frame with its checksum zeroed is the image the
checksum was computed of. -/
theorem requestIsSelfConsistent : Obligations.RequestIsSelfConsistent := by
  intro k id p hseed hp
  refine ⟨_, encodeRequest_eq_some k id hp, by simp; omega, memRead16_eq_some.mpr ⟨rfl, rfl⟩, ?_,
    memRead16_eq_some.mpr ⟨rfl, rfl⟩, rfl, ?_⟩
  · refine (memRead_two rfl rfl).trans ?_
    rw [loByte_add_hiByte, BitVec.toNat_ofNat, Nat.mod_eq_of_lt (by omega)]
  · rw [← hseed]
    exact memRead16_eq_some.mpr ⟨rfl, rfl⟩

/-- Settles O19: the count of a command of the catalog, read off the default columns. -/
theorem expectedResponseBytesPerCommand : Obligations.ExpectedResponseBytesPerCommand := by
  refine ⟨fun id h => by rw [expectedResponseBytes, lookup_unknown h], fun row hrow => ?_⟩
  rw [expectedResponseBytes_wf mps_wf, Except.ok.injEq]
  revert row
  decide

end Sys2Proof.Machine
end

section
/-! SUPPORT. The labels of the status enumeration (spec/42_frame_codec.md R122), for every configuration. -/

namespace Sys2Proof.Machine

theorem StatusLabel.mem_all (l : StatusLabel) : l ∈ StatusLabel.all := by cases l <;> decide

/-- Where keys are distinct, a search by key finds the one entry that has it. -/
theorem find?_key_eq_some {α β : Type} [DecidableEq β] {f : α → β} {xs : List α} (hd : (xs.map f).Nodup) {a : α}
    (ha : a ∈ xs) : xs.find? (fun x => f x == f a) = some a := by
  cases hf : xs.find? fun x => f x == f a with
  | some b =>
    have hb : f b = f a := by simpa using List.find?_some hf
    rw [List.inj_on_of_nodup_map hd (List.mem_of_find?_eq_some hf) ha hb]
  | none => simpa using List.find?_eq_none.mp hf a ha

/-- A label answered is one whose code was given, and with distinct codes it is the only one (R122). -/
theorem statusLabel_eq_status {k : Config} (hd : k.statusCodesDistinct = true) {code : Byte} {l : StatusLabel} :
    statusLabel k code = .status l ↔ code = k.statusCode l := by
  constructor
  · intro h
    unfold statusLabel at h
    split at h
    · next l' hl =>
      cases h
      have hcode := List.find?_some hl
      exact (beq_iff_eq.mp hcode).symm
    · cases h
  · rintro rfl
    rw [statusLabel, find?_key_eq_some (decide_eq_true_eq.mp hd) (StatusLabel.mem_all l)]

/-- A code of no label keeps its raw value (spec/30_encoding.md R74). -/
theorem statusLabel_unrecognised {k : Config} {code : Byte} (h : ∀ l, code ≠ k.statusCode l) :
    statusLabel k code = .unrecognised code.toNat := by
  have hnone : StatusLabel.all.find? (fun l => k.statusCode l == code) = none :=
    List.find?_eq_none.mpr fun l _ => by simpa using (h l).symm
  rw [statusLabel, hnone]

theorem statusOk_iff {k : Config} {code : Byte} : statusOk k code = true ↔ code = k.statusCode .ok := beq_iff_eq

/-- Settles O20: the codes of the default enumeration are distinct. -/
theorem statusLabelsByCode : Obligations.StatusLabelsByCode := fun _ =>
  ⟨fun _ => statusLabel_eq_status (by decide), statusLabel_unrecognised, statusOk_iff⟩

end Sys2Proof.Machine
end

section
/-! SUPPORT. Validation of a response (spec/42_frame_codec.md R117 to R120, R127): when it has a value, when it is true,
and that a stored checksum makes a frame valid while one flipped bit makes it invalid. -/

namespace Sys2Proof.Machine

open Sys2Proof.Safety

variable {k : Config} {raw : List Byte}

/-! ### When validation has a value (R120) -/

theorem validateResponse_of_lt (h : raw.length < 6) (id : Word) : validateResponse k raw id = .error .shortBuffer := by
  rw [validateResponse, memRead16_of_lt h]
  cases memRead8 raw 0 <;> rfl

theorem validateResponse_of_le (h : 6 ≤ raw.length) (id : Word) : ∃ valid, validateResponse k raw id = .ok valid := by
  obtain ⟨echo, hecho⟩ := memRead8_of_le (show 0 + 1 ≤ raw.length by omega)
  obtain ⟨ck, hck⟩ := memRead_of_le (show 4 + 2 ≤ raw.length from h)
  simp [validateResponse, hecho, memRead16, hck]

/-- A response is valid exactly when it begins with the echo of the identifier and carries its own checksum (R117). -/
theorem validateResponse_eq_true {id : Word} : validateResponse k raw id = .ok true ↔
    (∃ echo, raw[0]? = some echo ∧ echo.setWidth 16 = id) ∧ memRead16 raw 4 = some (responseChecksum k raw) := by
  constructor
  · intro h
    obtain ⟨-, echo, ck, hecho, hck, hid, hsum⟩ := validateResponse_true h
    rw [memRead8_eq_getElem?] at hecho
    exact ⟨⟨echo, hecho, hid⟩, hsum ▸ hck⟩
  · rintro ⟨⟨echo, hecho, hid⟩, hck⟩
    simp [validateResponse, memRead8_eq_getElem?, hecho, hck, echoOk, hid]

theorem validateResponse_eq_false (hlen : 6 ≤ raw.length) (id : Word)
    (h : memRead16 raw 4 ≠ some (responseChecksum k raw)) : validateResponse k raw id = .ok false := by
  obtain ⟨_ | _, hv⟩ := validateResponse_of_le hlen id
  · exact hv
  · exact absurd (validateResponse_eq_true.mp hv).2 h

/-- Settles O22: the echo is one byte, so its zero extension is below 256. -/
theorem echoMatchesAllSixteenBits : Obligations.EchoMatchesAllSixteenBits := by
  intro k raw id
  refine ⟨fun h => (validateResponse_eq_true.mp h).1, fun hid h => ?_⟩
  obtain ⟨⟨echo, -, rfl⟩, -⟩ := validateResponse_eq_true.mp h
  rw [BitVec.toNat_setWidth_of_le (by decide)] at hid
  have := echo.isLt
  omega

/-! ### Decoders on fewer than six bytes (R120) -/

theorem decodeStatusOnly_of_lt (h : raw.length < 6) : decodeStatusOnly k raw = .error .shortBuffer := by
  have hsub : subseq raw 0 respHdr = none := if_neg (show ¬ 0 + 6 ≤ raw.length by omega)
  unfold decodeStatusOnly
  split
  · next hs => rw [hsub] at hs; cases hs
  · rfl

theorem decode_of_lt (h : raw.length < 6) {d : Descriptor} (hd : d.expectsResponse = true) :
    decode k d raw = .error .shortBuffer := by
  rw [decode, if_pos hd, validateResponse_of_lt h]

theorem decodeFields_of_lt (h : raw.length < 6) (d : Descriptor) : decodeFields k raw d = .error .shortBuffer :=
  needHeader_of_lt h _

/-- Every strategy's decoder tests for the header first; NONE has no decoder. -/
theorem payloadDecode_of_lt (h : raw.length < 6) {d : Descriptor} (hd : d.strategy ≠ .none) :
    payloadDecode k d raw = .error .shortBuffer := by
  have hfields := decodeFields_of_lt (k := k) h d
  unfold payloadDecode
  split
  case h_1 => exact hfields
  case h_2 => rw [decodeAnswer, hfields]; rfl
  case h_3 => rw [decodeIdent, hfields]; rfl
  case h_4 => rw [decodeStatus, hfields]; rfl
  case h_5 => exact needHeader_of_lt h _
  case h_6 => exact hfields
  case h_7 => exact needHeader_of_lt h _
  case h_8 hs => exact absurd hs hd

/-- Settles O23, decoder by decoder. -/
theorem shortBuffersFault : Obligations.ShortBuffersFault := fun _ _ =>
  ⟨fun h => ⟨validateResponse_of_lt h, decodeStatusOnly_of_lt h, fun _ => decode_of_lt h, decodeFields_of_lt h,
    fun _ => payloadDecode_of_lt h⟩, validateResponse_of_le⟩

/-! ### Single-bit errors (R127) -/

/-- The checksum field is taken as zero, so what stands in it does not matter (R119). -/
theorem responseChecksum_memWrite16 (h : 6 ≤ raw.length) (v : Word) :
    responseChecksum k (memWrite16 raw 4 v) = responseChecksum k raw := by
  rw [responseChecksum, memWrite16_memWrite16 v 0 h, responseChecksum]

/-- A frame that carries its own checksum is valid for the identifier its first byte echoes. -/
theorem validateResponse_own_checksum (h : 6 ≤ raw.length) {echo : Byte} (hecho : raw[0]? = some echo) :
    validateResponse k (memWrite16 raw 4 (responseChecksum k raw)) (echo.setWidth 16) = .ok true := by
  refine validateResponse_eq_true.mpr ⟨⟨echo, ?_, rfl⟩, ?_⟩
  · rw [memWrite16_getElem?_other raw _ (by decide) (by decide), hecho]
  · rw [responseChecksum_memWrite16 h, memRead16_memWrite16 _ h]

/-- A flipped bit of the checksum field changes the field and not the checksum; any other flipped bit changes the
checksum and not the field. -/
theorem memRead16_flipBit_ne_responseChecksum (hodd : k.polyOdd = true) (hlen : 6 ≤ raw.length) {p j : Nat}
    (hp : p < raw.length) (hj : j < 8) (h : memRead16 raw 4 = some (responseChecksum k raw)) :
    memRead16 (flipBit raw p j) 4 ≠ some (responseChecksum k (flipBit raw p j)) := by
  intro hflip
  by_cases hin : p = 4 ∨ p = 5
  · have hsum : responseChecksum k (flipBit raw p j) = responseChecksum k raw := by
      rw [responseChecksum, memWrite16_flipBit_inside j 0 hlen hin, responseChecksum]
    rw [hsum, memRead16_eq_some] at hflip
    rw [memRead16_eq_some] at h
    have hbyte : (flipBit raw p j)[p]? = raw[p]? := by
      obtain rfl | rfl := hin
      · exact hflip.1.trans h.1.symm
      · exact hflip.2.trans h.2.symm
    rw [flipBit_getElem?_same, List.getElem?_eq_getElem hp, Option.map_some, Option.some_inj] at hbyte
    exact xor_twoPow_ne _ hj hbyte
  · obtain ⟨h4, h5⟩ := not_or.mp hin
    have hfield : memRead16 (flipBit raw p j) 4 = memRead16 raw 4 := by
      rw [h, memRead16_eq_some, flipBit_getElem?_other raw j (Ne.symm h4), flipBit_getElem?_other raw j (Ne.symm h5)]
      exact memRead16_eq_some.mp h
    rw [hfield, h, Option.some_inj, responseChecksum, responseChecksum, memWrite16_flipBit_outside j 0 hlen h4 h5]
      at hflip
    exact singleBitErrorsChangeTheChecksum k _ _ p j hodd (by simpa using hp) hj hflip.symm

/-- Settles O24: a flipped bit leaves the checksum field and the checksum apart. -/
theorem checksumDetectsEverySingleBitError : Obligations.ChecksumDetectsEverySingleBitError := by
  intro k B hodd hlen
  have hecho : B[0]? = some (B.getD 0 0) := by
    rw [List.getD_eq_getElem _ _ (by omega), List.getElem?_eq_getElem]
  have hvalid := validateResponse_own_checksum (k := k) hlen hecho
  refine ⟨hvalid, fun p j hp hj => validateResponse_eq_false (by simpa using hlen) _ ?_⟩
  exact memRead16_flipBit_ne_responseChecksum hodd (by simpa using hlen) (by simpa using hp) hj
    (validateResponse_eq_true.mp hvalid).2

/-! ### The status gate (R121, spec/43_command_variants.md R141 step 2) -/

/-- A valid response echoes its command, whose name and status label the status-only decoder gives. -/
theorem decodeStatusOnly_of_valid (hk : k.wf = true) {c : Command} {status : Byte}
    (hv : validateResponse k raw (k.catalog c).id = .ok true) (hs : memRead8 raw 1 = some status) :
    decodeStatusOnly k raw = .ok (.decoded (headerFields k (k.catalog c) status)) := by
  obtain ⟨hlen, echo, -, hecho, -, hid, -⟩ := validateResponse_true hv
  have hsub : subseq raw 0 respHdr = some ((raw.drop 0).take respHdr) := if_pos (show 0 + 6 ≤ raw.length by omega)
  simp only [decodeStatusOnly, hecho, hs, hsub, hid, lookup_wf hk]

/-- The gate sends a valid response whose status is not OK to the status-only decoder. -/
theorem decode_of_status_not_ok (hk : k.wf = true) {c : Command} {status : Byte}
    (he : (k.catalog c).expectsResponse = true) (hv : validateResponse k raw (k.catalog c).id = .ok true)
    (hs : memRead8 raw 1 = some status) (hne : status ≠ k.statusCode .ok) :
    decode k (k.catalog c) raw = .ok (.decoded (headerFields k (k.catalog c) status)) := by
  simp only [decode, he, hv, hs, mt statusOk_iff.mp hne, decodeStatusOnly_of_valid hk hv hs, if_true,
    Bool.false_eq_true, if_false]

/-- Settles O25: the two header fields are all that the status-only decoder gives. -/
theorem statusGateYieldsTwoFields : Obligations.StatusGateYieldsTwoFields := fun _ _ _ => decode_of_status_not_ok mps_wf

end Sys2Proof.Machine
end

section
/-! SUPPORT. The synthetic responses of spec/95_test_vectors.md section 1 (spec/42_frame_codec.md R129): they are valid,
and the fields laid out one after another in their payload are read back one after another. -/

namespace Sys2Proof.Machine

open Sys2Proof.Safety

/-! ### Reads of a concatenation (spec/00_scope.md R8) -/

theorem subseq_append {A B bs : List Byte} {o n : Nat} (h : subseq A o n = some bs) :
    subseq (A ++ B) o n = some bs := by
  simp only [subseq, Option.ite_none_right_eq_some, Option.some_inj] at h ⊢
  obtain ⟨hle, rfl⟩ := h
  rw [List.length_append, List.drop_append_of_le_length (by omega), List.take_append_of_le_length (by simp; omega)]
  exact ⟨by omega, rfl⟩

theorem subseq_append_right (A B : List Byte) (o n : Nat) : subseq (A ++ B) (A.length + o) n = subseq B o n := by
  simp [subseq, Nat.add_assoc]

theorem subseq_self (b : List Byte) : subseq b 0 b.length = some b := by
  simp [subseq]

theorem memRead32_append {A B : List Byte} {o : Nat} {v : DWord} (h : memRead32 A o = some v) :
    memRead32 (A ++ B) o = some v := by
  simp only [memRead32, Option.map_eq_some_iff] at h ⊢
  obtain ⟨n, hn, rfl⟩ := h
  exact ⟨n, memRead_append hn, rfl⟩

/-- The generic decode reads within the bytes before the next field. -/
theorem genericValue_append {ty : FieldType} {A B : List Byte} {o : Nat} {v : Value}
    (h : genericValue ty A o = some v) : genericValue ty (A ++ B) o = some v := by
  cases ty <;> simp only [genericValue, memRead8, memRead16, memRead32, Option.map_map, Option.map_eq_some_iff] at h ⊢
  case dataL => cases h
  case bytes n => obtain ⟨b, hb, rfl⟩ := h; exact ⟨b, subseq_append hb, rfl⟩
  case str n => obtain ⟨b, hb, rfl⟩ := h; exact ⟨b, subseq_append hb, rfl⟩
  all_goals
    obtain ⟨x, hx, rfl⟩ := h
    exact ⟨x, memRead_append hx, rfl⟩

theorem genericValue_append_right (ty : FieldType) (A B : List Byte) (o : Nat) :
    genericValue ty (A ++ B) (A.length + o) = genericValue ty B o := by
  cases ty <;> simp only [genericValue, memRead8, memRead16, memRead32, memRead, subseq_append_right]

theorem fieldValues_append_right (A B : List Byte) : ∀ (fs : List (String × FieldType)) (o : Nat),
    fieldValues (A ++ B) (A.length + o) fs = fieldValues B o fs
  | [], _ => rfl
  | (n, ty) :: fs, o => by
    rw [fieldValues, fieldValues, genericValue_append_right, Nat.add_assoc, fieldValues_append_right A B fs]

/-- Fields laid out one after another are read back one after another (R123). -/
theorem fieldValues_cons_append {name : String} {ty : FieldType} {fs : List (String × FieldType)} {b bs : List Byte}
    {v : Value} {vs : Fields} (hlen : b.length = ty.width) (hv : genericValue ty b 0 = some v)
    (hvs : fieldValues bs 0 fs = some vs) : fieldValues (b ++ bs) 0 ((name, ty) :: fs) = some ((name, v) :: vs) := by
  have hrest : fieldValues (b ++ bs) (0 + ty.width) fs = some vs := by
    rw [Nat.zero_add, ← hlen, ← hvs]
    exact fieldValues_append_right b bs fs 0
  rw [fieldValues, genericValue_append hv, hrest]

theorem fieldValues_singleton {name : String} {ty : FieldType} {b : List Byte} {v : Value} (hlen : b.length = ty.width)
    (hv : genericValue ty b 0 = some v) : fieldValues b 0 [(name, ty)] = some [(name, v)] := by
  simpa using fieldValues_cons_append (name := name) (bs := []) hlen hv rfl

/-! ### The bytes of one field (R41, spec/41_command_catalog.md R111) -/

@[simp] theorem leBytes_length : ∀ n v : Nat, (leBytes n v).length = n
  | 0, _ => rfl
  | n + 1, v => by rw [leBytes, List.length_cons, leBytes_length n]

@[simp] theorem dwordBytes_length (v : DWord) : (dwordBytes v).length = 4 := leBytes_length 4 v.toNat

theorem leNat_leBytes : ∀ n v : Nat, leNat (leBytes n v) = v % 256 ^ n
  | 0, v => by rw [Nat.pow_zero, Nat.mod_one]; rfl
  | n + 1, v => by
    have hpow : 256 ^ (n + 1) = 256 * 256 ^ n := Nat.pow_succ'
    rw [leBytes, leNat, leNat_leBytes n, BitVec.toNat_ofNat, hpow, Nat.mod_mul]

theorem memRead32_dwordBytes (v : DWord) : memRead32 (dwordBytes v) 0 = some v := by
  have hsub : subseq (dwordBytes v) 0 4 = some (dwordBytes v) := subseq_self (dwordBytes v)
  have hv : v.toNat < 256 ^ 4 := v.isLt
  rw [memRead32, memRead, hsub, Option.map_some, Option.map_some, dwordBytes, leNat_leBytes, Nat.mod_eq_of_lt hv,
    BitVec.ofNat_toNat, BitVec.setWidth_eq]

theorem genericValue_u32 (v : DWord) : genericValue .u32 (dwordBytes v) 0 = some (.u32 v) := by
  rw [genericValue, memRead32_dwordBytes, Option.map_some]

theorem genericValue_f32 (v : DWord) : genericValue .f32 (dwordBytes v) 0 = some (.f32 v) := by
  rw [genericValue, memRead32_dwordBytes, Option.map_some]

theorem genericValue_str {b : List Byte} {n : Nat} (h : b.length = n) :
    genericValue (.str n) b 0 = some (.str (stripNul b)) := by
  rw [genericValue, ← h, subseq_self, Option.map_some]

/-! ### The frame of a synthetic response -/

/-- Six header bytes, of which only the echo and the status matter here, then the payload. -/
theorem encodeIntoResponse_eq (k : Config) (echo status : Byte) (p : List Byte) :
    ∃ b2 b3 b4 b5, encodeIntoResponse k echo status p = [echo, status, b2, b3, b4, b5] ++ p := ⟨_, _, _, _, rfl⟩

theorem encodeIntoResponse_length (k : Config) (echo status : Byte) (p : List Byte) :
    (encodeIntoResponse k echo status p).length = respHdr + p.length := by
  obtain ⟨b2, b3, b4, b5, h⟩ := encodeIntoResponse_eq k echo status p
  rw [h, List.length_append]
  rfl

theorem needHeader_encodeIntoResponse {α : Type} (k : Config) (echo status : Byte) (p : List Byte)
    (r : Except UnitFault α) : needHeader (encodeIntoResponse k echo status p) r = r :=
  needHeader_of_le (by rw [encodeIntoResponse_length]; exact Nat.le_add_right _ _) r

theorem memRead8_encodeIntoResponse_status (k : Config) (echo status : Byte) (p : List Byte) :
    memRead8 (encodeIntoResponse k echo status p) 1 = some status := by
  obtain ⟨b2, b3, b4, b5, h⟩ := encodeIntoResponse_eq k echo status p
  rw [memRead8_eq_getElem?, h]
  rfl

/-- Offsets from the header's end on are offsets into the payload. -/
theorem subseq_encodeIntoResponse (k : Config) (echo status : Byte) (p : List Byte) (o n : Nat) :
    subseq (encodeIntoResponse k echo status p) (respHdr + o) n = subseq p o n := by
  obtain ⟨b2, b3, b4, b5, h⟩ := encodeIntoResponse_eq k echo status p
  rw [h]
  exact subseq_append_right [echo, status, b2, b3, b4, b5] p o n

theorem drop_encodeIntoResponse (k : Config) (echo status : Byte) (p : List Byte) :
    (encodeIntoResponse k echo status p).drop respHdr = p := by
  obtain ⟨b2, b3, b4, b5, h⟩ := encodeIntoResponse_eq k echo status p
  rw [h]
  rfl

theorem fieldValues_encodeIntoResponse (k : Config) (echo status : Byte) (p : List Byte)
    (fs : List (String × FieldType)) :
    fieldValues (encodeIntoResponse k echo status p) respHdr fs = fieldValues p 0 fs := by
  obtain ⟨b2, b3, b4, b5, h⟩ := encodeIntoResponse_eq k echo status p
  rw [h]
  exact fieldValues_append_right [echo, status, b2, b3, b4, b5] p fs 0

/-- The frame carries its own checksum, so it is valid for its echo (R129). -/
theorem validateResponse_encodeIntoResponse (k : Config) (echo status : Byte) (p : List Byte) :
    validateResponse k (encodeIntoResponse k echo status p) (echo.setWidth 16) = .ok true :=
  validateResponse_own_checksum
    (raw := [echo, status, loByte (BitVec.ofNat 16 p.length), hiByte (BitVec.ofNat 16 p.length), 0, 0] ++ p)
    (by simp) rfl

/-! ### Decoding a synthetic OK response -/

section
variable {k : Config} {d : Descriptor} {echo : Byte} {p : List Byte}

/-- A synthetic OK response passes validation and the status gate: what is left is the payload decoder. -/
theorem decode_encodeIntoResponse {fs : Fields} (he : d.expectsResponse = true) (hid : echo.setWidth 16 = d.id)
    (hp : payloadDecode k d (encodeIntoResponse k echo (k.statusCode .ok) p) = .ok fs) :
    decode k d (encodeIntoResponse k echo (k.statusCode .ok) p) = .ok (.decoded fs) := by
  have hv := validateResponse_encodeIntoResponse k echo (k.statusCode .ok) p
  have hok : statusOk k (k.statusCode .ok) = true := statusOk_iff.mpr rfl
  rw [hid] at hv
  simp only [decode, he, hv, memRead8_encodeIntoResponse_status, hok, hp, if_true]
  rfl

/-- The fields of an OK response's header, the same in every configuration but for the name. -/
def okFields (d : Descriptor) : Fields := [("CommandId", .text d.name), ("Status", .enum (.status .ok))]

theorem headerFields_ok (k : Config) (d : Descriptor) : headerFields k d (k.statusCode .ok) = okFields d := by
  rw [headerFields, (statusLabel_eq_ok k _).mpr (statusOk_iff.mpr rfl), okFields]

/-- A payload of the descriptor's length gives the fields laid out in it (R123, R125). -/
theorem decodeFields_encodeIntoResponse {vs : Fields} (hlen : p.length = d.respLen)
    (hvs : fieldValues p 0 d.fields = some vs) :
    decodeFields k (encodeIntoResponse k echo (k.statusCode .ok) p) d = .ok (okFields d ++ vs) := by
  have hraw := encodeIntoResponse_length k echo (k.statusCode .ok) p
  rw [decodeFields, needHeader_encodeIntoResponse, if_pos (hraw.trans (by rw [hlen])),
    memRead8_encodeIntoResponse_status, fieldValues_encodeIntoResponse, hvs, ← headerFields_ok k]

/-- Three runs of bytes at offsets 0, 4 and 6 of a payload of eight bytes are printed (R151). -/
theorem decodeVersion_encodeIntoResponse {sw hw protocol : List Byte} (hlen : p.length = 8)
    (hsw : subseq p 0 4 = some sw) (hhw : subseq p 4 2 = some hw) (hprotocol : subseq p 6 2 = some protocol) :
    decodeVersion k d (encodeIntoResponse k echo (k.statusCode .ok) p) =
      .ok (okFields d ++ [("SW_VERSION", .text (dotted sw)), ("HW_VERSION", .text (dotted hw)),
        ("PROTOCOL_VERSION", .text (dotted protocol))]) := by
  have hraw := encodeIntoResponse_length k echo (k.statusCode .ok) p
  have hsub := subseq_encodeIntoResponse k echo (k.statusCode .ok) p
  rw [decodeVersion, needHeader_encodeIntoResponse, if_pos (hraw.trans (by rw [hlen])),
    memRead8_encodeIntoResponse_status, hsub 0, hsub 4, hsub 6, hsw, hhw, hprotocol, ← headerFields_ok k]

/-- A length field that counts the bytes after it gives back exactly these (R145). -/
theorem decodeEngData_encodeIntoResponse {len : DWord} {data : List Byte} (h : data.length = len.toNat) :
    decodeEngData k d (encodeIntoResponse k echo (k.statusCode .ok) (dwordBytes len ++ data)) =
      .ok (okFields d ++ [("LENGTH", .u32 len), ("DATA", .bytes data)]) := by
  have hraw := encodeIntoResponse_length k echo (k.statusCode .ok) (dwordBytes len ++ data)
  have hlen : (dwordBytes len ++ data).length = 4 + len.toNat := by rw [List.length_append, dwordBytes_length, h]
  have hread : memRead32 (encodeIntoResponse k echo (k.statusCode .ok) (dwordBytes len ++ data)) 6 = some len := by
    rw [memRead32, memRead, subseq_encodeIntoResponse k echo _ _ 0]
    exact memRead32_append (memRead32_dwordBytes len)
  have hdrop : (encodeIntoResponse k echo (k.statusCode .ok) (dwordBytes len ++ data)).drop 10 = data := by
    rw [← List.drop_drop (i := 4) (j := respHdr), drop_encodeIntoResponse, List.drop_left' (dwordBytes_length len)]
  rw [decodeEngData, needHeader_encodeIntoResponse, memRead8_encodeIntoResponse_status, hread, hdrop,
    ← headerFields_ok k]
  exact if_pos (hraw.trans (by rw [hlen, ← Nat.add_assoc]))

end

/-! ### Payload decoders that relabel a field (R142, R144, R150) -/

section
variable {k : Config} {d : Descriptor} {raw : List Byte}

theorem payloadDecode_of_answer_or_ident (h : d.strategy = .answer ∨ d.strategy = .ident) :
    payloadDecode k d raw = (decodeFields k raw d).map (reinterpret "ID" (asGas k)) := by
  obtain h | h := h <;> rw [payloadDecode, h] <;> rfl

theorem payloadDecode_of_status (h : d.strategy = .status) :
    payloadDecode k d raw = (decodeFields k raw d).map (reinterpret "SENSOR_STATUS" (asStatus k)) := by
  rw [payloadDecode, h]
  rfl

end

/-! ### The commands (spec/43_command_variants.md R142 to R152) -/

/-- Settles O27: one field of type `f32`, decoded generically. -/
theorem singleValueResponsesRoundTrip : Obligations.SingleValueResponsesRoundTrip := by
  intro row hrow v
  obtain ⟨he, hid, hstrat, hresp, hfields⟩ :
      (mps.catalog row.1).expectsResponse = true ∧
        ((mps.catalog row.1).id.setWidth 8).setWidth 16 = (mps.catalog row.1).id ∧
        (mps.catalog row.1).strategy = .generic ∧ (mps.catalog row.1).respLen = 4 ∧
        (mps.catalog row.1).fields = [(row.2, .f32)] := by
    revert row
    decide
  have hvs : fieldValues (dwordBytes v) 0 (mps.catalog row.1).fields = some [(row.2, .f32 v)] := by
    rw [hfields]
    exact fieldValues_singleton (dwordBytes_length v) (genericValue_f32 v)
  refine decode_encodeIntoResponse he hid ?_
  rw [payloadDecode, hstrat]
  exact decodeFields_encodeIntoResponse ((dwordBytes_length v).trans hresp.symm) hvs

/-- Settles O28: seven fields of four bytes each, and the one named ID relabelled. -/
theorem answerResponsesRoundTrip : Obligations.AnswerResponsesRoundTrip := by
  intro cycle conc gas temp pres rel abs
  have hvs : fieldValues (dwordBytes cycle ++ dwordBytes conc ++ dwordBytes gas ++ dwordBytes temp ++ dwordBytes pres ++
      dwordBytes rel ++ dwordBytes abs) 0 (mps.catalog .answer).fields =
      some [("CYCLE_COUNT", .u32 cycle), ("CONC", .f32 conc), ("ID", .u32 gas), ("TEMP", .f32 temp),
        ("PRESSURE", .f32 pres), ("REL_HUM", .f32 rel), ("ABS_HUM", .f32 abs)] := by
    simp only [List.append_assoc]
    exact fieldValues_cons_append (dwordBytes_length cycle) (genericValue_u32 cycle) <|
      fieldValues_cons_append (dwordBytes_length conc) (genericValue_f32 conc) <|
      fieldValues_cons_append (dwordBytes_length gas) (genericValue_u32 gas) <|
      fieldValues_cons_append (dwordBytes_length temp) (genericValue_f32 temp) <|
      fieldValues_cons_append (dwordBytes_length pres) (genericValue_f32 pres) <|
      fieldValues_cons_append (dwordBytes_length rel) (genericValue_f32 rel) <|
      fieldValues_singleton (dwordBytes_length abs) (genericValue_f32 abs)
  have hfields := decodeFields_encodeIntoResponse (k := mps) (echo := 0x01)
    (by simp only [List.length_append, dwordBytes_length]; rfl) hvs
  refine decode_encodeIntoResponse rfl rfl ?_
  rw [payloadDecode_of_answer_or_ident (.inl rfl), hfields]
  rfl

/-- Settles O29: one field each, relabelled by its name. -/
theorem labelledResponsesRoundTrip : Obligations.LabelledResponsesRoundTrip := by
  constructor
  · intro v
    have hvs : fieldValues (dwordBytes v) 0 (mps.catalog .ident).fields = some [("ID", .u32 v)] :=
      fieldValues_singleton (dwordBytes_length v) (genericValue_u32 v)
    have hfields := decodeFields_encodeIntoResponse (k := mps) (echo := 0x04) (dwordBytes_length v) hvs
    refine decode_encodeIntoResponse rfl rfl ?_
    rw [payloadDecode_of_answer_or_ident (.inr rfl), hfields]
    rfl
  · intro v
    have hu8 : genericValue .u8 [v] 0 = some (.u8 v) := by rw [genericValue, memRead8_eq_getElem?]; rfl
    have hvs : fieldValues [v] 0 (mps.catalog .status).fields = some [("SENSOR_STATUS", .u8 v)] :=
      fieldValues_singleton rfl hu8
    have hfields := decodeFields_encodeIntoResponse (k := mps) (echo := 0x41) rfl hvs
    refine decode_encodeIntoResponse rfl rfl ?_
    rw [payloadDecode_of_status rfl, hfields]
    rfl

/-- Settles O30: the three runs of bytes lie at offsets 0, 4 and 6 of the payload. -/
theorem versionResponsesRoundTrip : Obligations.VersionResponsesRoundTrip := by
  intro a b c d e f g h
  have hfields := decodeVersion_encodeIntoResponse (k := mps) (d := mps.catalog .version) (echo := 0x42)
    (p := [a, b, c, d, e, f, g, h]) rfl rfl rfl rfl
  exact decode_encodeIntoResponse rfl rfl hfields

/-- Settles O31: a string, a number and two strings, laid out one after another. -/
theorem sensorInfoResponsesRoundTrip : Obligations.SensorInfoResponsesRoundTrip := by
  intro serial cal mfg type hserial hcal hmfg
  have hvs : fieldValues (serial ++ dwordBytes type ++ cal ++ mfg) 0 (mps.catalog .sensorInfo).fields =
      some [("SERIAL_NUM", .str (stripNul serial)), ("SENSOR_TYPE", .u32 type), ("CAL_DATE", .str (stripNul cal)),
        ("MFG_DATE", .str (stripNul mfg))] := by
    simp only [List.append_assoc]
    exact fieldValues_cons_append hserial (genericValue_str hserial) <|
      fieldValues_cons_append (dwordBytes_length type) (genericValue_u32 type) <|
      fieldValues_cons_append hcal (genericValue_str hcal) <|
      fieldValues_singleton hmfg (genericValue_str hmfg)
  have hlen : (serial ++ dwordBytes type ++ cal ++ mfg).length = 68 := by simp [hserial, hcal, hmfg]
  exact decode_encodeIntoResponse rfl rfl (decodeFields_encodeIntoResponse hlen hvs)

/-- Settles O32: the embedded length is the number of bytes after it, so pass 2 takes them all. -/
theorem engDataResponsesRoundTrip : Obligations.EngDataResponsesRoundTrip := by
  intro data hdata
  have hlen : data.length = (BitVec.ofNat 32 data.length).toNat := by rw [BitVec.toNat_ofNat, Nat.mod_eq_of_lt hdata]
  exact decode_encodeIntoResponse rfl rfl (decodeEngData_encodeIntoResponse hlen)

end Sys2Proof.Machine
end

section
/-! SUPPORT. Strings and gas labels (spec/43_command_variants.md R155, R156): what `strip_nul` removes and what it leaves,
and which label a gas code has. -/

namespace Sys2Proof.Machine

/-! ### `strip_nul` (R156) -/

/-- The library's name for the loop of R156. -/
theorem stripNul_eq_rdropWhile (b : List Byte) : stripNul b = b.rdropWhile (· == 0) := rfl

/-- What is removed is a run of zero bytes at the end. -/
theorem exists_eq_stripNul_append_replicate (b : List Byte) : ∃ n, b = stripNul b ++ List.replicate n 0 := by
  have hzeros : ∀ x ∈ b.rtakeWhile (· == 0), x = 0 := fun _ hx => by
    simpa using List.mem_rtakeWhile_imp hx
  refine ⟨(b.rtakeWhile (· == 0)).length, ?_⟩
  rw [← List.eq_replicate_of_mem hzeros, stripNul_eq_rdropWhile, List.rdropWhile_append_rtakeWhile]

/-- What is left does not end in a zero byte. -/
theorem stripNul_getLast?_ne_zero (b : List Byte) : (stripNul b).getLast? ≠ some 0 := by
  intro h
  obtain ⟨hne, hlast⟩ := List.mem_getLast?_eq_getLast h
  exact List.rdropWhile_last_not (· == 0) b hne (beq_iff_eq.mpr hlast.symm)

/-- Settles O10: the bytes split into what `strip_nul` leaves and the zeros it removes. -/
theorem onlyTrailingZerosAreStripped : Obligations.OnlyTrailingZerosAreStripped := fun b =>
  ⟨exists_eq_stripNul_append_replicate b, stripNul_getLast?_ne_zero b⟩

/-! ### Gas labels (R155) -/

theorem GasLabel.mem_all (l : GasLabel) : l ∈ GasLabel.all := by cases l <;> decide

/-- A search by distinct keys finds exactly the entry whose key was given. -/
theorem find?_key_eq_some_iff {α β : Type} [DecidableEq β] {f : α → β} {xs : List α} (hd : (xs.map f).Nodup) {a : α}
    (ha : a ∈ xs) {b : β} : xs.find? (fun x => f x == b) = some a ↔ b = f a := by
  refine ⟨fun h => ?_, fun h => h ▸ find?_key_eq_some hd ha⟩
  have hkey := List.find?_some h
  exact (beq_iff_eq.mp hkey).symm

/-- A gas label answered is one whose code was given, and with distinct codes it is the only one (R155). -/
theorem gasLabel_eq_gas {k : Config} (hd : k.gasCodesDistinct = true) {v : DWord} {l : GasLabel} :
    gasLabel k v = .gas l ↔ v = k.gasCode l := by
  rw [← find?_key_eq_some_iff (decide_eq_true_eq.mp hd) (GasLabel.mem_all l), gasLabel]
  split
  · next hfound => simp [hfound]
  · next hnone => simp [hnone]

/-- A value that is no gas's code keeps all its 32 bits (R155). -/
theorem gasLabel_unrecognised {k : Config} {v : DWord} (h : ∀ l, v ≠ k.gasCode l) :
    gasLabel k v = .unrecognised v.toNat := by
  have hnone : GasLabel.all.find? (fun l => k.gasCode l == v) = none :=
    List.find?_eq_none.mpr fun l _ => by simpa using (h l).symm
  rw [gasLabel, hnone]

/-- Settles O21: the codes of the default enumeration are distinct. -/
theorem gasLabelsByCode : Obligations.GasLabelsByCode := fun _ =>
  ⟨fun _ => gasLabel_eq_gas (by decide), gasLabel_unrecognised⟩

end Sys2Proof.Machine
end

section
/-! SUPPORT. The tests of `decode` in their order (spec/43_command_variants.md R141, spec/60_exceptions.md R207): the
request-only commands, the framing, and behind the open status gate the length the payload's layout needs. -/

namespace Sys2Proof.Machine

/-- A read of `n` bytes is below `2 ^ (8 * n)` (R42). -/
theorem memRead_lt {buf : List Byte} {off n v : Nat} (h : memRead buf off n = some v) : v < 2 ^ (8 * n) := by
  obtain ⟨bs, hbs, rfl⟩ := Option.map_eq_some_iff.mp h
  obtain ⟨hle, hbytes⟩ := Option.ite_none_right_eq_some.mp hbs
  have hlen : bs.length = n := by
    rw [← Option.some_inj.mp hbytes, List.length_take, List.length_drop]
    omega
  rw [← hlen]
  exact leNat_lt bs

/-- A 32-bit read keeps the number read: no value is cut off. -/
theorem memRead_of_memRead32 {buf : List Byte} {off : Nat} {v : DWord} (h : memRead32 buf off = some v) :
    memRead buf off 4 = some v.toNat := by
  obtain ⟨n, hn, rfl⟩ := Option.map_eq_some_iff.mp h
  rw [hn, BitVec.toNat_ofNat, Nat.mod_eq_of_lt (memRead_lt hn)]

section
variable {k : Config} {d : Descriptor} {raw : List Byte}

theorem decode_of_requestOnly (he : d.expectsResponse = false) : decode k d raw = .error .noResponseExpected := by
  rw [decode, he]
  rfl

theorem decode_of_invalid (he : d.expectsResponse = true) (hv : validateResponse k raw d.id = .ok false) :
    decode k d raw = .ok .absent := by
  rw [decode, if_pos he, hv]

/-- The gate sends a valid response whose status is OK to the payload decoder. -/
theorem decode_of_status_ok (he : d.expectsResponse = true) (hv : validateResponse k raw d.id = .ok true)
    (hs : memRead8 raw 1 = some (k.statusCode .ok)) : decode k d raw = (payloadDecode k d raw).map .decoded := by
  simp only [decode, he, hv, hs, statusOk_iff.mpr, if_true]

theorem decodeFields_of_length_ne (h6 : respHdr ≤ raw.length) (hne : raw.length ≠ respHdr + d.respLen) :
    decodeFields k raw d = .error .lengthMismatch := by
  rw [decodeFields, needHeader_of_le h6, if_neg hne]

theorem decodeVersion_of_length_ne (h6 : respHdr ≤ raw.length) (hne : raw.length ≠ 14) :
    decodeVersion k d raw = .error .lengthMismatch := by
  rw [decodeVersion, needHeader_of_le h6, if_neg hne]

/-- Every decoder but that of ENG_DATA needs the header and the response length (R125); that of VERSION has the number
14 of its own (R151). -/
theorem payloadDecode_of_length_ne (h6 : respHdr ≤ raw.length) (hne : raw.length ≠ respHdr + d.respLen)
    (hversion : d.strategy = .version → d.respLen = 8) (heng : d.strategy ≠ .engData) (hnone : d.strategy ≠ .none) :
    payloadDecode k d raw = .error .lengthMismatch := by
  have hfields := decodeFields_of_length_ne (k := k) h6 hne
  unfold payloadDecode
  split
  case h_1 => exact hfields
  case h_2 => rw [decodeAnswer, hfields]; rfl
  case h_3 => rw [decodeIdent, hfields]; rfl
  case h_4 => rw [decodeStatus, hfields]; rfl
  case h_5 hs => rw [hversion hs] at hne; exact decodeVersion_of_length_ne h6 hne
  case h_6 => exact hfields
  case h_7 hs => exact absurd hs heng
  case h_8 hs => exact absurd hs hnone

/-- The decoder of ENG_DATA needs the length field, and as many bytes after it as it counts (R145). -/
theorem decodeEngData_of_length_ne (h6 : respHdr ≤ raw.length)
    (hne : ∀ len, memRead raw 6 4 = some len → raw.length ≠ 10 + len) :
    decodeEngData k d raw = .error .lengthMismatch := by
  rw [decodeEngData, needHeader_of_le h6]
  split
  · next len _ hlen => exact if_neg (hne _ (memRead_of_memRead32 hlen))
  · rfl

end

/-- Settles O26: a response-expecting command has a decoder, and VERSION's response length is that of its layout. -/
theorem decodeTestsInOrder : Obligations.DecodeTestsInOrder := by
  intro c raw
  refine ⟨decode_of_requestOnly, decode_of_invalid, fun he hv hs => ?_⟩
  have h6 : respHdr ≤ raw.length := (validateResponse_true hv).1
  rw [decode_of_status_ok he hv hs]
  constructor
  · intro hc hne
    have hversion : (mps.catalog c).strategy = .version → (mps.catalog c).respLen = 8 := by cases c <;> decide
    have hnone : (mps.catalog c).strategy ≠ .none := by revert he; cases c <;> decide
    rw [payloadDecode_of_length_ne h6 hne hversion (mt (strategy_engData mps_wf c).mp hc) hnone]
    rfl
  · rintro rfl hne
    have hpayload : payloadDecode mps (mps.catalog .engData) raw = .error .lengthMismatch :=
      decodeEngData_of_length_ne h6 hne
    rw [hpayload]
    rfl

end Sys2Proof.Machine
end

section
/-! SUPPORT. `cycle_update` (spec/43_command_variants.md R158): the first payload field of an ANSWER response behind the
open status gate, and nothing of any other result. -/

namespace Sys2Proof.Machine

/-- Only ANSWER has the name `cycle_update` looks for. -/
theorem cycleUpdate_of_ne_answer {c : Command} (hc : c ≠ .answer) (r : Result) :
    cycleUpdate (mps.catalog c) r = none := by
  have hname : (mps.catalog c).name ≠ "ANSWER" := by revert hc; cases c <;> decide
  exact if_neg hname

/-- The status alone holds no cycle count (R121). -/
theorem cycleUpdate_headerFields (k : Config) (d d' : Descriptor) (status : Byte) :
    cycleUpdate d (.decoded (headerFields k d' status)) = none := by
  unfold cycleUpdate
  split <;> rfl

/-- The first field of a decoded sequence is read at its start (R123). -/
theorem fieldValues_cons_eq_some {raw : List Byte} {o : Nat} {name : String} {ty : FieldType}
    {fs : List (String × FieldType)} {vs : Fields} (h : fieldValues raw o ((name, ty) :: fs) = some vs) :
    ∃ v rest, genericValue ty raw o = some v ∧ vs = (name, v) :: rest := by
  unfold fieldValues at h
  split at h
  · next v rest hv _ => cases h; exact ⟨v, rest, hv, rfl⟩
  · cases h

/-- The decoder of ANSWER puts the 32-bit number at offset 6 first after the header, and its relabelling of ID leaves that
field as it is (R142). -/
theorem cycleUpdate_of_payloadDecode_answer {raw : List Byte} {fs : Fields}
    (h : payloadDecode mps (mps.catalog .answer) raw = .ok fs) :
    ∃ cycle, memRead32 raw 6 = some cycle ∧ cycleUpdate (mps.catalog .answer) (.decoded fs) = some cycle := by
  rw [payloadDecode_of_answer_or_ident (.inl rfl)] at h
  cases hf : decodeFields mps raw (mps.catalog .answer) with
  | error f => rw [hf] at h; cases h
  | ok vs =>
    obtain ⟨-, status, payload, -, hpayload, rfl⟩ := decodeFields_shape hf
    obtain ⟨v, rest, hv, rfl⟩ := fieldValues_cons_eq_some hpayload
    obtain ⟨cycle, hcycle, rfl⟩ := Option.map_eq_some_iff.mp hv
    rw [hf] at h
    cases h
    exact ⟨cycle, hcycle, rfl⟩

/-- Settles O33: of the three results `decode` has for ANSWER, only that of the payload decoder holds a cycle count. -/
theorem cycleUpdateComesFromAnswerAlone : Obligations.CycleUpdateComesFromAnswerAlone := by
  intro c raw r v h
  by_cases hc : c = .answer
  · subst hc
    obtain ⟨-, ⟨hv, rfl⟩ | ⟨status, hv, hs, ⟨hgate, hd⟩ | ⟨hgate, fs, hp, rfl⟩⟩⟩ := decode_ok h
    · have hnone : cycleUpdate (mps.catalog .answer) .absent = none := rfl
      simp [hnone, hv]
    · obtain ⟨_, status', d, -, -, -, rfl⟩ := decodeStatusOnly_ok hd
      have hne : status ≠ mps.statusCode .ok := fun hok => by simp [statusOk_iff.mpr hok] at hgate
      simp [cycleUpdate_headerFields, hs, hne]
    · obtain ⟨cycle, hcycle, hupdate⟩ := cycleUpdate_of_payloadDecode_answer hp
      simp [hv, hs, statusOk_iff.mp hgate, hcycle, hupdate]
  · simp [cycleUpdate_of_ne_answer hc, hc]

end Sys2Proof.Machine
end

section
/-! SUPPORT. ISSUE (spec/44_exchange_sequencer.md R181, R183, R188): the state an instruction leaves in a quiescent unit,
Busy while an exchange is open, the operands that stand for no instruction, and that nothing but ISSUE transmits. -/

namespace Sys2Proof.Machine

open Sys2Proof.Safety

/-- Raising a fault in an unfaulted unit, in the words of the claims (spec/60_exceptions.md R208). -/
theorem raiseFault_eq_faulted (f : UnitFault) {s : State} (h : s.fault = none) : raiseFault f s = faulted f s :=
  raiseFault_of_none s f h

/-! ### What ISSUE leaves -/

section
variable (d : Descriptor) (n : Nat) (frame : List Byte) (s : State)

@[simp] theorem issued_txbuf : (issued d n frame s).txbuf = Memory.writeBytes s.txbuf 0 frame := by
  simp only [issued]; split <;> rfl

@[simp] theorem issued_txlen : (issued d n frame s).txlen = frame.length := by
  simp only [issued]; split <;> rfl

@[simp] theorem issued_rxbuf : (issued d n frame s).rxbuf = s.rxbuf := by
  simp only [issued]; split <;> rfl

@[simp] theorem issued_fault : (issued d n frame s).fault = s.fault := by
  simp only [issued]; split <;> rfl

@[simp] theorem issued_inputs : (issued d n frame s).inputs = s.inputs := by
  simp only [issued]; split <;> rfl

@[simp] theorem issued_outputs : (issued d n frame s).outputs =
    s.outputs ++ .tx frame :: (if d.expectsResponse then [] else [.done .sent]) := by
  simp only [issued]; split <;> simp

end

/-- The bytes of TX are those left in `txbuf` (spec/20_memory.md R47). -/
theorem sentFrame_issued (d : Descriptor) (n : Nat) (frame : List Byte) {s : State} (h : s.txbuf.wf = true) :
    sentFrame (issued d n frame s) = frame := by
  rw [sentFrame, issued_txbuf, issued_txlen, Memory.readBytes_writeBytes frame 0 h]

/-- The state in which the request of an instruction is sent and its response awaited (R181). -/
def opened (k : Config) (i : Instr) (s : State) : State :=
  openExchange (if instrCommand i = .engData then 10 else respHdr + (k.catalog (instrCommand i)).respLen)
    (emit [.tx (encodeInstr k i)] (loadRequest (k.catalog (instrCommand i)).id (encodeInstr k i) s))

/-- The state after a request that is not answered (R183). -/
def sentOnly (k : Config) (i : Instr) (s : State) : State :=
  emit [.tx (encodeInstr k i), .done .sent]
    (settle .sent (loadRequest (k.catalog (instrCommand i)).id (encodeInstr k i) s))

section
variable {k : Config} {s : State}

theorem runInstr_of_await (i : Instr) (hf : s.fault = none) (hp : s.phase = .await) :
    runInstr k i s = .next (faulted .busy s) := by
  rw [runInstr_eq_issue, ← raiseFault_eq_faulted _ hf]
  exact guardIdle_of_await hf hp _

/-- In a quiescent unit of a well-formed configuration an instruction is encoded and handed to TX. -/
theorem runInstr_of_quiescent (hk : k.wf = true) (hq : quiescent s) (i : Instr) :
    ∃ n, expectedResponseBytes k (k.catalog (instrCommand i)).id = .ok n ∧
      runInstr k i s = .next (issued (k.catalog (instrCommand i)) n (encodeInstr k i) s) := by
  obtain ⟨hp, hf⟩ := hq
  refine ⟨_, expectedResponseBytes_wf hk _, ?_⟩
  simp only [runInstr_eq_issue, issue, guardIdle_of_idle hf hp, encode_instr hk, expectedResponseBytes_wf hk]

theorem runInstr_of_expects (hk : k.wf = true) (hq : quiescent s) {i : Instr}
    (he : (k.catalog (instrCommand i)).expectsResponse = true) : runInstr k i s = .next (opened k i s) := by
  obtain ⟨n, hn, hrun⟩ := runInstr_of_quiescent hk hq i
  rw [expectedResponseBytes_wf hk, if_pos he] at hn
  cases hn
  rw [hrun, issued, if_pos he]
  rfl

theorem runInstr_of_requestOnly (hk : k.wf = true) (hq : quiescent s) {i : Instr}
    (he : (k.catalog (instrCommand i)).expectsResponse = false) : runInstr k i s = .next (sentOnly k i s) := by
  obtain ⟨n, -, hrun⟩ := runInstr_of_quiescent hk hq i
  simp [hrun, issued, he, sentOnly, emit, settle]

end

/-- Settles O34: the columns and the frames of the eleven rows are those of the default catalog. -/
theorem responseCommandsOpenAnExchange : Obligations.ResponseCommandsOpenAnExchange := by
  intro s hq row hrow
  have hcolumns : (mps.catalog (instrCommand row.1)).expectsResponse = true ∧
      (mps.catalog (instrCommand row.1)).id = row.2.1 ∧
      (if instrCommand row.1 = .engData then 10 else respHdr + (mps.catalog (instrCommand row.1)).respLen) = row.2.2.1 ∧
      encodeInstr mps row.1 = row.2.2.2 ∧ row.2.2.2.length = 8 := by
    simp only [List.mem_cons, List.not_mem_nil, or_false] at hrow
    obtain rfl | rfl | rfl | rfl | rfl | rfl | rfl | rfl | rfl | rfl | rfl := hrow <;> decide
  obtain ⟨he, hid, hcount, hframe, hlen⟩ := hcolumns
  rw [exec_eq_runInstr, runInstr_of_expects mps_wf hq he, opened, hid, hcount, hframe]
  simp only [openExchange, emit, loadRequest, hlen]

/-- The fixed header bytes of MEAS do not depend on its selectors (spec/30_encoding.md R67). -/
theorem requestHead_meas (unit mode : Nibble) : requestHead mps (.meas unit mode) = [0x61, 0, 1, 0, 0, 0] := by
  change requestHead mps (.meas 0 0) = _
  decide

/-- Settles O35: both commands expect no response, and their frames are those of the opcode table. -/
theorem requestOnlyCommandsSettleAtOnce : Obligations.RequestOnlyCommandsSettleAtOnce := by
  refine fun s hq => ⟨fun unit mode => ⟨requestChecksum mps (.meas unit mode), ?_, ?_⟩, ?_⟩
  · rw [requestChecksum, requestHead_meas]
    rfl
  · rw [exec_eq_runInstr, runInstr_of_requestOnly mps_wf hq rfl, sentOnly, encodeInstr, requestHead_meas]
    rfl
  · have hframe : encodeInstr mps .shutdown = [0x62, 0, 0, 0, 0, 0, 0x20, 0x33] := by decide
    rw [exec_eq_runInstr, runInstr_of_requestOnly mps_wf hq rfl, sentOnly, hframe]
    rfl

/-- Settles O36: in IDLE the frame is written from offset 0 and no fault is raised, and in AWAIT Busy is. -/
theorem instructionsChangeOnlyTheirExchange : Obligations.InstructionsChangeOnlyTheirExchange := by
  intro i s t h
  rw [exec_eq_runInstr] at h
  have hf : s.fault = none := by rw [runInstr_eq_issue] at h; exact (issue_next h).1
  cases hp : s.phase with
  | idle =>
    obtain ⟨n, -, hrun⟩ := runInstr_of_quiescent mps_wf ⟨hp, hf⟩ i
    rw [hrun] at h
    cases h
    refine ⟨issued_crc .., issued_rxbuf .., issued_inputs .., fun a ha => ?_, .inl ((issued_fault ..).trans hf)⟩
    rw [issued_txbuf, Memory.read_writeBytes_outside _ _ _ (.inr (by omega))]
  | await =>
    rw [runInstr_of_await i hf hp] at h
    cases h
    exact ⟨rfl, rfl, rfl, fun _ _ => rfl, .inr rfl⟩

/-! ### Busy (R188) -/

/-- Settles O37: every one of these operations is behind `guardIdle`. -/
theorem awaitingUnitIsBusy : Obligations.AwaitingUnitIsBusy := by
  intro k s hf hp
  have hbusy (a : Answer) : guardIdle s a = .next (faulted .busy s) := by
    rw [guardIdle_of_await hf hp, raiseFault_eq_faulted _ hf]
  refine ⟨fun i => ?_, fun i => runInstr_of_await i hf hp, fun id payload => ?_, fun _ => hbusy _,
    fun _ => hbusy _, hbusy _⟩
  · rw [exec_eq_runInstr, runInstr_of_await i hf hp]
  · rw [perform]
    split
    · exact runInstr_of_await _ hf hp
    · exact hbusy _

/-! ### The operands of ISSUE (R181, spec/60_exceptions.md R207) -/

section
variable {k : Config} {id : Word} {payload : List Byte}

/-- Operands stand for an instruction exactly when they are its identifier and payload. -/
theorem decodeRequest_eq_ok (hk : k.wf = true) {i : Instr} : decodeRequest k id payload = .ok i ↔
    (k.catalog (instrCommand i)).id = id ∧ instrPayload i = payload := by
  constructor
  · intro h
    unfold decodeRequest at h
    split at h
    · next hframe =>
      cases h
      obtain ⟨-, ⟨hid, -, -⟩, hdrop⟩ := (decodeFrame_eq_ok hk).mp hframe
      have himage : memRead16 (requestImage id payload) 0 = some id := memRead16_eq_some.mpr ⟨rfl, rfl⟩
      rw [himage, Option.some_inj] at hid
      rw [List.append_nil] at hdrop
      exact ⟨hid.symm, hdrop.symm⟩
    · cases h
  · rintro ⟨rfl, rfl⟩
    exact decodeRequest_instr hk i

/-- Other operands fault, an unknown identifier before a wrong length. -/
theorem decodeRequest_eq_error (h : ∀ i, decodeRequest k id payload ≠ .ok i) :
    decodeRequest k id payload = .error (if (commandOf k id).isSome then .badRequestPayload else .unknownCommand) := by
  unfold decodeRequest at h ⊢
  split at h
  · exact absurd rfl (h _)
  · rfl

theorem perform_issue_of_error {s : State} {f : UnitFault} (hq : quiescent s)
    (h : decodeRequest k id payload = .error f) : perform k (.issue id payload) s = .next (faulted f s) := by
  obtain ⟨hp, hf⟩ := hq
  rw [perform, h, ← raiseFault_eq_faulted _ hf]
  exact guardIdle_of_idle hf hp _

/-- Every payload of a command's length is that of an instruction (spec/30_encoding.md R67, R70). -/
theorem exists_instr_of_length {c : Command} (h : payload.length = requestLength c) :
    ∃ i, instrCommand i = c ∧ instrPayload i = payload := by
  have htake : ∃ i, takeOperands c payload = .ok (i, []) := by
    cases c with
    | meas =>
      obtain ⟨p, rfl⟩ := List.length_eq_one_iff.mp h
      exact ⟨_, rfl⟩
    | _ =>
      obtain rfl := List.length_eq_zero_iff.mp h
      exact ⟨_, rfl⟩
  obtain ⟨i, hi⟩ := htake
  obtain ⟨hc, hpayload⟩ := takeOperands_eq_ok.mp hi
  exact ⟨i, hc, by rw [hpayload, List.append_nil]⟩

end

/-- Settles O38: what decodes has its command's identifier and payload length, and every payload of that length
decodes. -/
theorem issueChecksItsOperands : Obligations.IssueChecksItsOperands := by
  refine ⟨fun k s id payload hk hq => ⟨fun hunknown => ?_, ?_⟩, fun i s => (exec_eq_runInstr i s).symm⟩
  · have hno (i : Instr) : decodeRequest k id payload ≠ .ok i := fun h => hunknown _ ((decodeRequest_eq_ok hk).mp h).1
    refine perform_issue_of_error hq ?_
    rw [decodeRequest_eq_error hno, commandOf_eq_none.mpr hunknown]
    rfl
  · rintro c rfl
    refine ⟨fun hlen => ?_, fun hlen => ?_⟩
    · have hno (i : Instr) : decodeRequest k (k.catalog c).id payload ≠ .ok i := by
        intro h
        obtain ⟨hid, rfl⟩ := (decodeRequest_eq_ok hk).mp h
        obtain rfl := command_eq_of_id hk hid
        exact hlen (instrPayload_reqLen hk i)
      refine perform_issue_of_error hq ?_
      rw [decodeRequest_eq_error hno, commandOf_wf hk]
      rfl
    · obtain ⟨i, rfl, rfl⟩ := exists_instr_of_length (hlen.trans (catalog_reqLen hk c))
      exact ⟨i, rfl, rfl, perform_issueOf hk i s⟩

/-! ### Who transmits (R182) -/

/-- Between two states no frame was put out, and no event taken back. -/
def noFrameBetween (s t : State) : Prop := ∃ es, t.outputs = s.outputs ++ es ∧ ∀ frame, .tx frame ∉ es

section
variable {s t u : State}

theorem noFrameBetween_of_outputs_eq (h : t.outputs = s.outputs) : noFrameBetween s t := ⟨[], by simp [h], by simp⟩

theorem noFrameBetween.trans (h1 : noFrameBetween s t) (h2 : noFrameBetween t u) : noFrameBetween s u := by
  obtain ⟨es, hes, h1⟩ := h1
  obtain ⟨es', hes', h2⟩ := h2
  exact ⟨es ++ es', by rw [hes', hes, List.append_assoc], fun frame => by simp [h1, h2]⟩

theorem noFrameBetween_complete (k : Config) (s : State) : noFrameBetween s (complete k s) := by
  obtain ⟨f, h⟩ | ⟨d, r, es, -, -, rfl, h⟩ := complete_cases k s <;> rw [h]
  · exact noFrameBetween_of_outputs_eq rfl
  · refine ⟨_, rfl, fun frame => ?_⟩
    split <;> simp

theorem noFrameBetween_rxByte {k : Config} {b : Byte} (h : rxByte k b s = .next t) : noFrameBetween s t := by
  obtain ⟨-, ⟨-, rfl⟩ | ⟨-, -, ⟨f, -, rfl⟩ | ⟨u, hu, rfl⟩⟩⟩ := rxByte_next h
  · exact noFrameBetween_of_outputs_eq rfl
  · exact noFrameBetween_of_outputs_eq rfl
  · have hstage : noFrameBetween s u := by
      obtain rfl | ⟨_, _, _, rfl, -⟩ := extendStage_ok hu <;> exact noFrameBetween_of_outputs_eq rfl
    split
    · exact hstage.trans (noFrameBetween_complete k u)
    · exact hstage

/-- An operation puts out no frame, or is the ISSUE of an instruction. -/
theorem perform_noFrame_or_issued {k : Config} {op : HostOp} (h : perform k op s = .next t) : noFrameBetween s t ∨
    ∃ id payload d n frame, op = .issue id payload ∧ t = issued d n frame s := by
  obtain ⟨f, -, -, rfl⟩ | ⟨id, payload, i, hop, -, hi⟩ | ⟨bs, -, -, hr⟩ | ⟨-, -, rfl⟩ | ⟨-, rfl⟩ | ⟨-, -, hcrc⟩ :=
    perform_next h
  · exact .inl (noFrameBetween_of_outputs_eq rfl)
  · rw [runInstr_eq_issue] at hi
    obtain ⟨-, ⟨f, rfl⟩ | ⟨-, frame, n, -, -, rfl⟩⟩ := issue_next hi
    · exact .inl (noFrameBetween_of_outputs_eq rfl)
    · exact .inr ⟨id, payload, _, n, frame, hop, rfl⟩
  · exact .inl (rxBytes_induction (P := noFrameBetween s) (fun _ _ _ hu hb => hu.trans (noFrameBetween_rxByte hb)) bs
      (noFrameBetween_of_outputs_eq rfl) hr)
  · exact .inl ⟨_, rfl, by simp⟩
  · exact .inl (noFrameBetween_of_outputs_eq rfl)
  · obtain ⟨seed, -, rfl⟩ | ⟨b, c, -, -, rfl⟩ | ⟨c, -, -, rfl⟩ := hcrc
    · exact .inl (noFrameBetween_of_outputs_eq rfl)
    · exact .inl (noFrameBetween_of_outputs_eq rfl)
    · exact .inl ⟨_, rfl, by simp⟩

end

/-- Settles O39: an instruction puts out its frame and perhaps a done, and nothing else puts out a frame. -/
theorem onlyIssueTransmits : Obligations.OnlyIssueTransmits := by
  intro k op s t hwf h
  obtain ⟨es, hes, hno⟩ | ⟨id, payload, d, n, frame, hop, rfl⟩ := perform_noFrame_or_issued h
  · exact ⟨es, hes, fun frame hmem => absurd hmem (hno frame)⟩
  · refine ⟨_, issued_outputs d n frame s, fun frame' hmem => ⟨⟨id, payload, hop⟩, ?_, ?_⟩⟩
    · rw [sentFrame_issued d n frame hwf]
      cases he : d.expectsResponse <;> simpa [he] using hmem
    · split <;> rfl

/-- Settles O55: in AWAIT an ISSUE raises Busy, the checksum operations do too, and a fault leaves the phase. -/
theorem onlyTheHostEndsAWait : Obligations.OnlyTheHostEndsAWait := by
  intro k op s t hs h ht
  have hne : s.phase ≠ t.phase := by rw [hs, ht]; decide
  obtain ⟨f, -, -, rfl⟩ | ⟨_, _, i, -, -, hi⟩ | ⟨bs, -, hop, -⟩ | ⟨-, hop, -⟩ | ⟨hop, -⟩ | ⟨-, hp, -⟩ := perform_next h
  · exact absurd rfl hne
  · rw [runInstr_eq_issue] at hi
    obtain ⟨-, ⟨f, rfl⟩ | ⟨hp, -⟩⟩ := issue_next hi
    · exact absurd rfl hne
    · rw [hs] at hp; cases hp
  · exact .inr (.inr ⟨bs, hop⟩)
  · exact .inl hop
  · exact .inr (.inl hop)
  · rw [hs] at hp; cases hp

/-! ### Steps (R180) -/

/-- Settles O53: the queue is served from its head. -/
theorem stepPerformsTheNextOperation : Obligations.StepPerformsTheNextOperation := by
  refine fun s hf => ⟨fun op rest hin => ?_, fun hin => ?_⟩
  · calc step s = takeStep mps (setInputs s.inputs s) := rfl
      _ = perform mps op (setInputs rest s) := by rw [hin, takeStep_setInputs_cons mps hf]
  · rw [step, takeStep, hf, serve, hin]

/-- Settles O52: performing an ISSUE runs what its operands decode to. -/
theorem stepRunsTheDecodedInstruction : Obligations.StepRunsTheDecodedInstruction := by
  refine ⟨fun s id payload rest i hf hin hdec => ?_, decodeRequest_instr mps_wf⟩
  rw [(stepPerformsTheNextOperation s hf).1 _ rest hin, perform, hdec, exec_eq_runInstr]

end Sys2Proof.Machine
end

section
/-! SUPPORT. RECV and IO_ERROR (spec/44_exchange_sequencer.md R184 to R187): what one received byte does, the tenth byte of
an EngData response, the byte that completes an exchange, and that a response may come in parts. -/

namespace Sys2Proof.Machine

open Sys2Proof.Safety

/-! ### The loop of RECV (R184) -/

section
variable {k : Config} {s t : State}

theorem recv_of_unfaulted (hf : s.fault = none) (bs : List Byte) : recv k bs s = rxBytes k bs s :=
  guardFault_of_none hf _

/-- The loop goes on after a byte that raises no fault. -/
theorem rxBytes_cons_of_unfaulted {b : Byte} (h : rxByte k b s = .next t) (ht : t.fault = none) (bs : List Byte) :
    rxBytes k (b :: bs) s = rxBytes k bs t := by
  simp only [rxBytes, h, ht, if_true]

/-- The loop ends at a fault. -/
theorem rxBytes_cons_of_faulted {b : Byte} (h : rxByte k b s = .next t) (ht : t.fault ≠ none) (bs : List Byte) :
    rxBytes k (b :: bs) s = .next t := by
  simp only [rxBytes, h, ht, if_false]

theorem rxBytes_singleton {b : Byte} (h : rxByte k b s = .next t) : rxBytes k [b] s = .next t := by
  by_cases ht : t.fault = none
  · exact rxBytes_cons_of_unfaulted h ht []
  · exact rxBytes_cons_of_faulted h ht []

theorem recv_singleton {b : Byte} (hf : s.fault = none) (h : rxByte k b s = .next t) : recv k [b] s = .next t :=
  (recv_of_unfaulted hf [b]).trans (rxBytes_singleton h)

/-- The loop over a concatenation is one loop after the other, where the first raises no fault. -/
theorem rxBytes_append : ∀ (as bs : List Byte) {s t : State}, rxBytes k as s = .next t → t.fault = none →
    rxBytes k (as ++ bs) s = rxBytes k bs t
  | [], _, _, _, h, _ => by cases h; rfl
  | a :: as, bs, s, t, h, ht => by
    cases ha : rxByte k a s with
    | next u =>
      by_cases hu : u.fault = none
      · rw [rxBytes_cons_of_unfaulted ha hu] at h
        rw [List.cons_append, rxBytes_cons_of_unfaulted ha hu]
        exact rxBytes_append as bs h ht
      · rw [rxBytes_cons_of_faulted ha hu] at h
        cases h
        exact absurd ht hu
    | fault f => simp [rxBytes, ha] at h
    | refused r => simp [rxBytes, ha] at h

end

/-- Settles O42: the loop over all the bytes passes through the state the first part leaves. -/
theorem splittingReceptionDoesNotMatter : Obligations.SplittingReceptionDoesNotMatter := by
  intro k as bs s t h ht
  obtain ⟨hf, hloop⟩ := guardFault_next h
  rw [recv_of_unfaulted hf, recv_of_unfaulted ht]
  exact rxBytes_append as bs hloop ht

/-- Settles O41: the first byte faults, and the loop ends at a fault. -/
theorem bytesOutsideAnExchangeFault : Obligations.BytesOutsideAnExchangeFault := by
  rintro k s b bs ⟨hp, hf⟩
  have hb : rxByte k b s = .next (faulted .unexpectedRx s) := by
    rw [rxByte, guardFault_of_none hf, hp, ← raiseFault_eq_faulted _ hf]
  rw [recv_of_unfaulted hf]
  exact rxBytes_cons_of_faulted hb (Option.some_ne_none _) bs

/-- Settles O45: the four updates of the rule, one after another. -/
theorem ioErrorEndsTheExchange : Obligations.IoErrorEndsTheExchange := fun _ _ hf => guardFault_of_none hf _

/-! ### The end of an exchange (R186) -/

/-- The state in which an exchange has ended with a result: `framing_error` for ABSENT, then one done. -/
def completed (r : Result) (s : State) : State :=
  emit ((if r = .absent then [.framingError] else []) ++ [.done r]) (settle r s)

section
variable {k : Config} {s : State} {c : Command} (hk : k.wf = true) (hcmd : s.cmd = (k.catalog c).id)
include hk hcmd

theorem complete_of_decode_ok {r : Result} (h : decode k (k.catalog c) (received s) = .ok r) :
    complete k s = completed r s := by
  unfold complete
  rw [hcmd, lookup_wf hk]
  dsimp only
  rw [h]
  by_cases hr : r = .absent
  · rw [hr]
    rfl
  · simp [completed, hr]

theorem complete_of_decode_error {f : UnitFault} (h : decode k (k.catalog c) (received s) = .error f) :
    complete k s = raiseFault f s := by
  simp only [complete, hcmd, lookup_wf hk, h]

end

/-! ### One byte of an open exchange (R184, R185) -/

/-- Among the next `n` bytes is no tenth byte of an EngData response. -/
def noTenthOfEngData (k : Config) (s : State) (n : Nat) : Prop :=
  s.rxlen < 10 → 10 ≤ s.rxlen + n → ∃ c, c ≠ .engData ∧ s.cmd = (k.catalog c).id

section
variable {k : Config} {s : State} {b : Byte}

/-- Another byte than EngData's tenth leaves the count as it is. -/
theorem extendStage_pushRx (hk : k.wf = true) (h : noTenthOfEngData k s 1) :
    extendStage k (pushRx b s) = .ok (pushRx b s) := by
  unfold extendStage
  split
  · next hlen =>
    rw [pushRx_rxlen] at hlen
    obtain ⟨c, hc, hcmd⟩ := h (by omega) (by omega)
    rw [pushRx_cmd, hcmd, lookup_wf hk]
    exact if_neg fun hstage => hc ((strategy_engData hk c).mp hstage.1)
  · rfl

/-- EngData's tenth byte is looked at together with the status and the length before it. -/
theorem extendStage_engData (hk : k.wf = true) (hcmd : s.cmd = (k.catalog .engData).id) (hlen : s.rxlen = 10)
    (hexp : s.rxExpected = 10) : extendStage k s = extendEngData k s := by
  have hstrat := (strategy_engData hk .engData).mpr rfl
  simp only [extendStage, hlen, hcmd, lookup_wf hk, hstrat, hexp, and_self, if_true]

theorem extendEngData_eq {status : Byte} {len : Nat} (hs : memRead8 (received s) 1 = some status)
    (hl : memRead (received s) 6 4 = some len) : extendEngData k s =
      if status = k.statusCode .ok then
        if k.engDataMaxL < len then .error .rxOverflow else .ok (setExpected (10 + len) s)
      else .ok s := by
  simp only [extendEngData, hs, hl, statusOk_iff, gt_iff_lt]

variable (hf : s.fault = none) (hp : s.phase = .await) (hroom : s.rxlen < k.rxCap)
include hf hp hroom

theorem rxByte_of_extendStage_error {f : UnitFault} (h : extendStage k (pushRx b s) = .error f) :
    rxByte k b s = .next (faulted f (pushRx b s)) := by
  rw [← raiseFault_eq_faulted f (s := pushRx b s) hf]
  simp only [rxByte, guardFault_of_none hf, hp, hroom, if_true, h]

theorem rxByte_of_extendStage_ok {u : State} (h : extendStage k (pushRx b s) = .ok u) :
    rxByte k b s = .next (if u.rxlen = u.rxExpected then complete k u else u) := by
  simp only [rxByte, guardFault_of_none hf, hp, hroom, if_true, h]

/-- A byte before the last is stored and counted. -/
theorem rxByte_of_not_last (hk : k.wf = true) (h : noTenthOfEngData k s 1) (hne : s.rxlen + 1 ≠ s.rxExpected) :
    rxByte k b s = .next (pushRx b s) := by
  rw [rxByte_of_extendStage_ok hf hp hroom (extendStage_pushRx hk h)]
  exact congrArg _ (if_neg hne)

/-- The last byte completes the exchange. -/
theorem rxByte_of_last (hk : k.wf = true) (h : noTenthOfEngData k s 1) (heq : s.rxlen + 1 = s.rxExpected) :
    rxByte k b s = .next (complete k (pushRx b s)) := by
  rw [rxByte_of_extendStage_ok hf hp hroom (extendStage_pushRx hk h)]
  exact congrArg _ (if_pos heq)

end

/-- Settles O40: no stage is extended, and the count is not reached. -/
theorem receivedByteIsStored : Obligations.ReceivedByteIsStored := by
  intro s b hf hp hroom hne htenth
  have hno : noTenthOfEngData mps s 1 := fun h10 hle => htenth (by omega)
  exact recv_singleton hf (rxByte_of_not_last hf hp hroom mps_wf hno hne)

/-- Settles O44: the byte is stored, and `complete` decodes what is there. -/
theorem lastByteCompletesTheExchange : Obligations.LastByteCompletesTheExchange := by
  intro s b c hf hp hroom heq hcmd htenth
  have hno : noTenthOfEngData mps s 1 := fun h10 hle => ⟨c, fun hc => htenth hc (by omega), hcmd⟩
  have hrecv : recv mps [b] s = .next (complete mps (pushRx b s)) :=
    recv_singleton hf (rxByte_of_last hf hp hroom mps_wf hno heq)
  refine ⟨fun r hr => ?_, fun f herr => ?_⟩
  · rw [hrecv, complete_of_decode_ok mps_wf (s := pushRx b s) hcmd hr, completed]
    split
    · next h => subst h; rfl
    · rfl
  · rw [hrecv, complete_of_decode_error mps_wf (s := pushRx b s) hcmd herr, raiseFault_eq_faulted f (s := pushRx b s) hf]

/-- Settles O43: the stage raises the fault, sets a count above ten, or leaves the ten that are there. -/
theorem engDataExtendsAtTheTenthByte : Obligations.EngDataExtendsAtTheTenthByte := by
  intro s b status len hf hp hcmd hexp hlen hs hl
  have hroom : s.rxlen < mps.rxCap := by rw [hlen]; decide
  have hten : (pushRx b s).rxlen = 10 := by rw [pushRx_rxlen, hlen]
  have hstage := extendStage_engData (s := pushRx b s) mps_wf hcmd hten hexp
  have hmax : mps.engDataMaxL = 128 := rfl
  rw [extendEngData_eq hs hl, hmax] at hstage
  refine ⟨fun ⟨hok, hlong⟩ => ?_, fun ⟨hok, hpos, hle⟩ => ?_, fun hdone => ?_⟩
  · rw [if_pos hok, if_pos hlong] at hstage
    exact recv_singleton hf (rxByte_of_extendStage_error hf hp hroom hstage)
  · rw [if_pos hok, if_neg (not_lt.mpr hle)] at hstage
    rw [recv_singleton hf (rxByte_of_extendStage_ok hf hp hroom hstage), setExpected_rxlen, hten, setExpected_rxExpected,
      if_neg (by omega)]
    rfl
  · have hstay : extendStage mps (pushRx b s) = .ok (pushRx b s) := by
      rw [hstage]
      obtain hne | rfl := hdone
      · rw [if_neg hne]
      · have hsame : setExpected 10 (pushRx b s) = pushRx b s := by rw [← hexp]; rfl
        split
        · simpa using hsame
        · rfl
    rw [recv_singleton hf (rxByte_of_extendStage_ok hf hp hroom hstay), hten, pushRx_rxExpected, hexp, if_pos rfl]

end Sys2Proof.Machine
end

section
/-! SUPPORT. Whole exchanges (spec/44_exchange_sequencer.md R190): the request is sent, the bytes awaited are stored one after
another, and the last one ends the exchange with what `decode` answers for all of them. -/

namespace Sys2Proof.Machine

open Sys2Proof.Safety

/-! ### Storing bytes one after another (R184) -/

/-- A sequence of bytes stored at `rxbuf[rxlen]` and counted. -/
def storeRx (bs : List Byte) (s : State) : State :=
  { s with rxbuf := Memory.writeBytes s.rxbuf s.rxlen bs, rxlen := s.rxlen + bs.length }

theorem storeRx_cons (b : Byte) (bs : List Byte) (s : State) : storeRx (b :: bs) s = storeRx bs (pushRx b s) := by
  simp [storeRx, pushRx, Memory.writeBytes, Nat.add_assoc, Nat.add_comm 1]

theorem storeRx_append : ∀ (as bs : List Byte) (s : State), storeRx (as ++ bs) s = storeRx bs (storeRx as s)
  | [], _, _ => rfl
  | a :: as, bs, s => by rw [List.cons_append, storeRx_cons, storeRx_cons, storeRx_append as]

/-- The bytes stored join those received. -/
theorem received_storeRx : ∀ (bs : List Byte) {s : State}, s.rxbuf.wf = true →
    received (storeRx bs s) = received s ++ bs
  | [], s, _ => (List.append_nil (received s)).symm
  | b :: bs, s, h => by
    rw [storeRx_cons, received_storeRx bs (Memory.wf_write _ b h), received_pushRx b h, List.append_assoc]
    rfl

/-- An open exchange that takes the next `n` bytes: they are awaited, and EngData's tenth is not among them. -/
def takesBytes (k : Config) (s : State) (n : Nat) : Prop :=
  s.fault = none ∧ s.phase = .await ∧ s.rxlen + n ≤ s.rxExpected ∧ s.rxExpected ≤ k.rxCap ∧ noTenthOfEngData k s n

section
variable {k : Config} {s : State} {n : Nat}

/-- After one byte the exchange takes the rest. -/
theorem takesBytes_pushRx (b : Byte) (h : takesBytes k s (n + 1)) : takesBytes k (pushRx b s) n := by
  obtain ⟨hf, hp, hle, hcap, hno⟩ := h
  refine ⟨hf, hp, ?_, hcap, fun h10 h10' => ?_⟩
  · rw [pushRx_rxlen, pushRx_rxExpected]; omega
  · rw [pushRx_rxlen] at h10 h10'
    exact hno (by omega) (by omega)

/-- The first of several bytes awaited is stored. -/
theorem rxByte_of_takesBytes (hk : k.wf = true) (b : Byte) (h : takesBytes k s (n + 1)) (hne : s.rxlen + 1 ≠ s.rxExpected) :
    rxByte k b s = .next (pushRx b s) := by
  obtain ⟨hf, hp, hle, hcap, hno⟩ := h
  exact rxByte_of_not_last hf hp (by omega) hk (fun h10 _ => hno h10 (by omega)) hne

/-- Bytes before the last are stored. -/
theorem rxBytes_of_not_last (hk : k.wf = true) : ∀ (bs : List Byte) {s : State}, takesBytes k s bs.length →
    s.rxlen + bs.length ≠ s.rxExpected → rxBytes k bs s = .next (storeRx bs s)
  | [], _, _, _ => rfl
  | b :: bs, s, h, hne => by
    have hpush : takesBytes k (pushRx b s) bs.length := takesBytes_pushRx b h
    obtain ⟨hf, -, hle, -⟩ := id h
    rw [List.length_cons] at hle hne
    rw [rxBytes_cons_of_unfaulted (rxByte_of_takesBytes hk b h (by omega)) hf, storeRx_cons]
    exact rxBytes_of_not_last hk bs hpush (by rw [pushRx_rxlen, pushRx_rxExpected]; omega)

/-- All the bytes awaited are stored, and the last one completes the exchange. -/
theorem rxBytes_of_last (hk : k.wf = true) : ∀ (b : Byte) (bs : List Byte) {s : State}, takesBytes k s (bs.length + 1) →
    s.rxlen + (bs.length + 1) = s.rxExpected → rxBytes k (b :: bs) s = .next (complete k (storeRx (b :: bs) s))
  | b, [], s, ⟨hf, hp, hle, hcap, hno⟩, heq => by
    rw [List.length_nil] at hle hno
    exact rxBytes_singleton (rxByte_of_last hf hp (by omega) hk hno heq)
  | b, b' :: bs, s, h, heq => by
    have hpush : takesBytes k (pushRx b s) (bs.length + 1) := takesBytes_pushRx b h
    obtain ⟨hf, -⟩ := id h
    rw [List.length_cons] at heq
    rw [rxBytes_cons_of_unfaulted (rxByte_of_takesBytes hk b h (by omega)) hf, storeRx_cons]
    exact rxBytes_of_last hk b' bs hpush (by rw [pushRx_rxlen, pushRx_rxExpected]; omega)

end

/-! ### `decode` has a result for a response of the right length (spec/43_command_variants.md R141) -/

section
variable {k : Config} {d : Descriptor} {raw : List Byte}

theorem decodeFields_of_length (hlen : raw.length = respHdr + d.respLen) (hfixed : ∀ f ∈ d.fields, f.2 ≠ .dataL)
    (hsum : (d.fields.map fun f => f.2.width).sum = d.respLen) : ∃ fs, decodeFields k raw d = .ok fs := by
  have h6 : respHdr ≤ raw.length := by omega
  obtain ⟨status, hs⟩ := memRead8_of_le (A := raw) (o := 1) (le_trans (by decide) h6)
  obtain ⟨vs, hvs⟩ := fieldValues_of_le (raw := raw) d.fields respHdr hfixed (by omega)
  exact ⟨_, by rw [decodeFields, needHeader_of_le h6, if_pos hlen, hs, hvs]⟩

theorem decodeVersion_of_length (hlen : raw.length = 14) : ∃ fs, decodeVersion k d raw = .ok fs := by
  obtain ⟨status, hs⟩ := memRead8_of_le (A := raw) (o := 1) (by omega)
  exact ⟨_, by simp [decodeVersion, needHeader, subseq, hlen, hs]; rfl⟩

theorem decodeEngData_of_length {len : Nat} (hl : memRead raw 6 4 = some len) (hlen : raw.length = 10 + len) :
    ∃ fs, decodeEngData k d raw = .ok fs := by
  have h6 : respHdr ≤ raw.length := le_trans (by decide) (show 10 ≤ raw.length by omega)
  obtain ⟨status, hs⟩ := memRead8_of_le (A := raw) (o := 1) (by omega)
  have h32 : memRead32 raw 6 = some (BitVec.ofNat 32 len) := by rw [memRead32, hl, Option.map_some]
  have hnat : (BitVec.ofNat 32 len).toNat = len := Nat.mod_eq_of_lt (memRead_lt hl)
  exact ⟨_, by rw [decodeEngData, needHeader_of_le h6, hs, h32]; simp only [hnat]; exact if_pos hlen⟩

/-- Every decoder but that of ENG_DATA answers where the length is the response's; that of VERSION needs the number 14
of its own (R151). -/
theorem payloadDecode_of_length (hlen : raw.length = respHdr + d.respLen) (hfixed : ∀ f ∈ d.fields, f.2 ≠ .dataL)
    (hsum : (d.fields.map fun f => f.2.width).sum = d.respLen) (hversion : d.strategy = .version → d.respLen = 8)
    (heng : d.strategy ≠ .engData) (hnone : d.strategy ≠ .none) : ∃ fs, payloadDecode k d raw = .ok fs := by
  obtain ⟨fs, hfs⟩ := decodeFields_of_length (k := k) hlen hfixed hsum
  unfold payloadDecode
  split
  case h_1 => exact ⟨fs, hfs⟩
  case h_2 => exact ⟨_, by rw [decodeAnswer, hfs]; rfl⟩
  case h_3 => exact ⟨_, by rw [decodeIdent, hfs]; rfl⟩
  case h_4 => exact ⟨_, by rw [decodeStatus, hfs]; rfl⟩
  case h_5 hs => exact decodeVersion_of_length (by rw [hlen, hversion hs])
  case h_6 => exact ⟨fs, hfs⟩
  case h_7 hs => exact absurd hs heng
  case h_8 hs => exact absurd hs hnone

/-- A response of at least a header has a result where its payload has one behind the open status gate. -/
theorem exists_decode_eq_ok (hk : k.wf = true) {c : Command} (he : (k.catalog c).expectsResponse = true)
    (h6 : 6 ≤ raw.length)
    (hpay : memRead8 raw 1 = some (k.statusCode .ok) → ∃ fs, payloadDecode k (k.catalog c) raw = .ok fs) :
    ∃ r, decode k (k.catalog c) raw = .ok r := by
  obtain ⟨_ | _, hv⟩ := validateResponse_of_le (k := k) h6 (k.catalog c).id
  · exact ⟨_, decode_of_invalid he hv⟩
  obtain ⟨status, hs⟩ := memRead8_of_le (A := raw) (o := 1) (by omega)
  by_cases hok : status = k.statusCode .ok
  · subst hok
    obtain ⟨fs, hfs⟩ := hpay hs
    exact ⟨.decoded fs, by rw [decode_of_status_ok he hv hs, hfs]; rfl⟩
  · exact ⟨_, decode_of_status_not_ok hk he hv hs hok⟩

end

/-- A fixed-length response of the default catalog has a result (spec/41_command_catalog.md R106). -/
theorem exists_decode_eq_ok_of_fixed {c : Command} {raw : List Byte} (he : (mps.catalog c).expectsResponse = true)
    (hc : c ≠ .engData) (hlen : raw.length = 6 + (mps.catalog c).respLen) : ∃ r, decode mps (mps.catalog c) raw = .ok r := by
  have hlayout : (∀ f ∈ (mps.catalog c).fields, f.2 ≠ .dataL) ∧
      ((mps.catalog c).fields.map fun f => f.2.width).sum = (mps.catalog c).respLen := by
    revert hc; cases c <;> decide
  have hversion : (mps.catalog c).strategy = .version → (mps.catalog c).respLen = 8 := by cases c <;> decide
  have hnone : (mps.catalog c).strategy ≠ .none := by revert he; cases c <;> decide
  exact exists_decode_eq_ok mps_wf he (by omega) fun _ =>
    payloadDecode_of_length hlen hlayout.1 hlayout.2 hversion (mt (strategy_engData mps_wf c).mp hc) hnone

/-! ### The exchange -/

/-- ISSUE and then the bytes of `raw` end in a quiescent state that holds what `decode` answers for them. -/
def deliversDecode (i : Instr) (s : State) (raw : List Byte) : Prop :=
  ∃ t u r, exec i s = .next t ∧ recv mps raw t = .next u ∧ decode mps (mps.catalog (instrCommand i)) raw = .ok r ∧
    u.result = r ∧ quiescent u ∧ u.rxExpected = 0 ∧ received u = raw ∧ u.crc = s.crc ∧
    u.outputs = s.outputs ++ [.tx (encodeInstr mps i)] ++ (if r = .absent then [.framingError] else []) ++ [.done r]

section
variable {i : Instr} {s : State} {raw : List Byte}

/-- The exchange delivers what `decode` answers once its bytes are all stored, whatever count was awaited in the end. -/
theorem deliversDecode_of_complete {n : Nat} {r : Result} (hq : quiescent s) (hwf : s.rxbuf.wf = true)
    (he : (mps.catalog (instrCommand i)).expectsResponse = true)
    (hdec : decode mps (mps.catalog (instrCommand i)) raw = .ok r)
    (hrx : rxBytes mps raw (opened mps i s) = .next (complete mps (setExpected n (storeRx raw (opened mps i s))))) :
    deliversDecode i s raw := by
  obtain ⟨-, hf⟩ := id hq
  have hreceived : received (storeRx raw (opened mps i s)) = raw := received_storeRx raw (s := opened mps i s) hwf
  have hdone : complete mps (setExpected n (storeRx raw (opened mps i s))) =
      completed r (storeRx raw (opened mps i s)) :=
    complete_of_decode_ok (s := setExpected n (storeRx raw (opened mps i s))) mps_wf rfl
      ((congrArg _ hreceived).trans hdec)
  refine ⟨opened mps i s, completed r (storeRx raw (opened mps i s)), r, ?_, ?_, hdec, rfl, ⟨rfl, hf⟩, rfl, hreceived, rfl,
    ?_⟩
  · rw [exec_eq_runInstr, runInstr_of_expects mps_wf hq he]
  · rw [recv_of_unfaulted (s := opened mps i s) hf, hrx, hdone]
  · rw [List.append_assoc]
    rfl

end

/-- Settles O46: no byte of these exchanges is EngData's tenth, so all but the last are stored. -/
theorem fixedLengthExchangeDeliversDecode : Obligations.FixedLengthExchangeDeliversDecode := by
  intro i s raw hq hwf he hc hlen
  obtain ⟨r, hdec⟩ := exists_decode_eq_ok_of_fixed he hc hlen
  have hexp : (opened mps i s).rxExpected = raw.length := (if_neg hc).trans hlen.symm
  have hcap : raw.length ≤ mps.rxCap := by rw [hlen]; exact (frames_fit mps_wf (instrCommand i)).2.1
  have htakes : takesBytes mps (opened mps i s) raw.length :=
    ⟨hq.2, rfl, by rw [hexp]; exact (Nat.zero_add _).le, by rwa [hexp], fun _ _ => ⟨instrCommand i, hc, rfl⟩⟩
  cases raw with
  | nil => rw [List.length_nil] at hlen; omega
  | cons b bs =>
    exact deliversDecode_of_complete (n := (opened mps i s).rxExpected) hq hwf he hdec
      (rxBytes_of_last mps_wf b bs htakes ((Nat.zero_add _).trans hexp.symm))

/-! ### ENG_DATA (R185) -/

section
variable {s : State} {front rest : List Byte} {b status : Byte} {len : Nat}

/-- Nine bytes of an ENG_DATA response leave the first stage open. -/
theorem rxBytes_engData_nine (hf : s.fault = none) (hnine : front.length = 9) :
    rxBytes mps front (opened mps .engData s) = .next (storeRx front (opened mps .engData s)) := by
  have hlen : (opened mps .engData s).rxlen = 0 := rfl
  have hexp : (opened mps .engData s).rxExpected = 10 := rfl
  refine rxBytes_of_not_last mps_wf front ⟨hf, rfl, by omega, by rw [hexp]; decide, fun _ h10 => ?_⟩ (by omega)
  omega

/-- What the tenth byte does to an ENG_DATA exchange in a quiescent unit, by the status and the length before it. -/
theorem rxBytes_engData_ten (hf : s.fault = none) (hwf : s.rxbuf.wf = true) (hnine : front.length = 9)
    (hs : memRead8 (front ++ [b]) 1 = some status) (hl : memRead (front ++ [b]) 6 4 = some len) :
    (status = mps.statusCode .ok ∧ 0 < len ∧ len ≤ 128 →
      rxBytes mps (front ++ [b]) (opened mps .engData s) =
        .next (setExpected (10 + len) (storeRx (front ++ [b]) (opened mps .engData s)))) ∧
    (status ≠ mps.statusCode .ok ∨ len = 0 →
      rxBytes mps (front ++ [b]) (opened mps .engData s) =
        .next (complete mps (storeRx (front ++ [b]) (opened mps .engData s)))) := by
  have hpush : pushRx b (storeRx front (opened mps .engData s)) = storeRx (front ++ [b]) (opened mps .engData s) :=
    (storeRx_append front [b] _).symm
  have hreceived : received (storeRx (front ++ [b]) (opened mps .engData s)) = front ++ [b] :=
    received_storeRx _ (s := opened mps .engData s) hwf
  have hlen : (storeRx front (opened mps .engData s)).rxlen = 9 := (Nat.zero_add _).trans hnine
  obtain ⟨-, hextend, hcomplete⟩ := engDataExtendsAtTheTenthByte (storeRx front (opened mps .engData s)) b status len hf rfl
    rfl rfl hlen (by rwa [hpush, hreceived]) (by rwa [hpush, hreceived])
  rw [hpush, recv_of_unfaulted (s := storeRx front (opened mps .engData s)) hf] at hextend hcomplete
  rw [rxBytes_append front [b] (rxBytes_engData_nine hf hnine) hf]
  exact ⟨hextend, hcomplete⟩

/-- The bytes of an ENG_DATA response are all stored, and the last one completes the exchange: the tenth, or the last of
the data counted by the length. -/
theorem rxBytes_engData_all (hf : s.fault = none) (hwf : s.rxbuf.wf = true) (hnine : front.length = 9)
    (hs : memRead8 (front ++ [b]) 1 = some status) (hl : memRead (front ++ [b]) 6 4 = some len)
    (hrest : if status = mps.statusCode .ok then len ≤ 128 ∧ rest.length = len else rest.length = 0) :
    ∃ n, rxBytes mps (front ++ [b] ++ rest) (opened mps .engData s) =
      .next (complete mps (setExpected n (storeRx (front ++ [b] ++ rest) (opened mps .engData s)))) := by
  obtain ⟨hextend, hcomplete⟩ := rxBytes_engData_ten hf hwf hnine hs hl
  cases rest with
  | nil =>
    have hend : status ≠ mps.statusCode .ok ∨ len = 0 := by
      by_cases hok : status = mps.statusCode .ok
      · rw [if_pos hok] at hrest
        exact .inr hrest.2.symm
      · exact .inl hok
    rw [List.append_nil]
    exact ⟨10, hcomplete hend⟩
  | cons b' rest =>
    have hok : status = mps.statusCode .ok := by
      by_contra hne
      rw [if_neg hne] at hrest
      cases hrest
    rw [if_pos hok, List.length_cons] at hrest
    obtain ⟨hle, hlen⟩ := hrest
    have hten : (front ++ [b]).length = 10 := by rw [List.length_append, hnine]; rfl
    have hrxlen : (setExpected (10 + len) (storeRx (front ++ [b]) (opened mps .engData s))).rxlen = 10 :=
      (Nat.zero_add _).trans hten
    have hexp : (setExpected (10 + len) (storeRx (front ++ [b]) (opened mps .engData s))).rxExpected = 10 + len := rfl
    have hcap : mps.rxCap = 138 := rfl
    have htakes : takesBytes mps (setExpected (10 + len) (storeRx (front ++ [b]) (opened mps .engData s)))
        (rest.length + 1) := ⟨hf, rfl, by omega, by omega, fun h10 => by omega⟩
    refine ⟨10 + len, ?_⟩
    rw [rxBytes_append (front ++ [b]) (b' :: rest) (hextend ⟨hok, by omega, hle⟩) hf,
      rxBytes_of_last mps_wf b' rest htakes (by omega), storeRx_append (front ++ [b])]
    rfl

end

/-- A sequence of ten bytes or more is nine, then the tenth, then the rest. -/
theorem exists_split_at_tenth {raw : List Byte} (h : 10 ≤ raw.length) :
    ∃ front b rest, front.length = 9 ∧ raw = front ++ [b] ++ rest := by
  obtain ⟨b, rest, hrest⟩ := List.exists_cons_of_length_pos (l := raw.drop 9) (by rw [List.length_drop]; omega)
  refine ⟨raw.take 9, b, rest, by rw [List.length_take]; omega, ?_⟩
  rw [List.append_assoc, List.singleton_append, ← hrest, List.take_append_drop]

/-- Settles O47: nine bytes are stored, the tenth completes the exchange or sets its count, and the bytes after it are
stored up to the last. -/
theorem engDataExchangeDeliversDecode : Obligations.EngDataExchangeDeliversDecode := by
  intro s raw status len hq hwf hs hl hlen
  have hlong : 10 ≤ raw.length := by
    by_contra hshort
    rw [memRead_eq_none.mpr (by omega)] at hl
    cases hl
  have hpay : memRead8 raw 1 = some (mps.statusCode .ok) → ∃ fs, payloadDecode mps (mps.catalog .engData) raw = .ok fs := by
    intro hok
    rw [if_pos (Option.some_inj.mp (hs.symm.trans hok))] at hlen
    exact decodeEngData_of_length hl hlen.2
  obtain ⟨r, hdec⟩ := exists_decode_eq_ok mps_wf (c := .engData) rfl (by omega) hpay
  obtain ⟨front, b, rest, hnine, rfl⟩ := exists_split_at_tenth hlong
  have hten : (front ++ [b]).length = 10 := by rw [List.length_append, hnine]; rfl
  obtain ⟨status', hs'⟩ := memRead8_of_le (A := front ++ [b]) (o := 1) (by omega)
  obtain ⟨len', hl'⟩ := memRead_of_le (A := front ++ [b]) (o := 6) (n := 4) (by omega)
  obtain rfl := Option.some_inj.mp (hs.symm.trans (memRead8_append hs'))
  obtain rfl := Option.some_inj.mp (hl.symm.trans (memRead_append hl'))
  have hrest : if status = mps.statusCode .ok then len ≤ 128 ∧ rest.length = len else rest.length = 0 := by
    rw [List.length_append, hten] at hlen
    by_cases hok : status = mps.statusCode .ok
    · rw [if_pos hok] at hlen ⊢
      exact ⟨hlen.1, by omega⟩
    · rw [if_neg hok] at hlen ⊢
      omega
  obtain ⟨n, hrx⟩ := rxBytes_engData_all hq.2 hwf hnine hs' hl' hrest
  exact deliversDecode_of_complete hq hwf rfl hdec hrx

end Sys2Proof.Machine
end

section
/-! SUPPORT. Faults and the host's contract (spec/60_exceptions.md R208, R209, R212): a faulted unit takes no step but
RESET, a raised fault is the only change, and a host that keeps its contract meets at most the RxOverflow of EngData. -/

namespace Sys2Proof.Machine

open Sys2Proof.Safety

/-! ### Fault entry (R208) -/

theorem guardIdle_of_some {s : State} {f : UnitFault} (h : s.fault = some f) (a : Answer) :
    guardIdle s a = .fault (.stuck f) := guardFault_of_some h _

theorem runInstr_of_faulted (k : Config) (i : Instr) {s : State} {f : UnitFault} (h : s.fault = some f) :
    runInstr k i s = .fault (.stuck f) := by
  rw [runInstr_eq_issue]
  exact guardIdle_of_some h _

/-- Every operation but RESET is behind one of the two guards. -/
theorem perform_of_faulted (k : Config) {op : HostOp} {s : State} {f : UnitFault} (h : s.fault = some f)
    (hop : op ≠ .reset) : perform k op s = .fault (.stuck f) := by
  cases op with
  | issue id payload =>
    rw [perform]
    split
    · exact runInstr_of_faulted k _ h
    · exact guardIdle_of_some h _
  | recv bytes => exact guardFault_of_some h _
  | ioError => exact guardFault_of_some h _
  | reset => exact absurd rfl hop
  | crcLoad seed => exact guardIdle_of_some h _
  | crcByte b => exact guardIdle_of_some h _
  | crcRead => exact guardIdle_of_some h _

/-- Settles O48: an instruction is an ISSUE, and the guards test the fault first. -/
theorem faultedUnitHasNoStep : Obligations.FaultedUnitHasNoStep := fun k _ _ h =>
  ⟨fun i => (exec_eq_runInstr i _).trans (runInstr_of_faulted mps i h), fun i => runInstr_of_faulted k i h,
    fun _ => perform_of_faulted k h⟩

/-- The fault found after raising one in an unfaulted unit is the one raised. -/
theorem raiseFault_eq_faulted_of_fault {s : State} {f g : UnitFault} (hs : s.fault = none)
    (hf : (raiseFault g s).fault = some f) : raiseFault g s = faulted f s := by
  rw [raiseFault_eq_faulted g hs] at hf ⊢
  cases hf
  rfl

/-- Settles O49: the operations that do not raise a fault leave the unit unfaulted. -/
theorem faultingOperationsChangeNothingElse : Obligations.FaultingOperationsChangeNothingElse := by
  intro k op s t f hrecv h hf
  obtain ⟨g, hs, -, rfl⟩ | ⟨_, _, i, -, -, hi⟩ | ⟨bs, -, hop, -⟩ | ⟨hs, -, rfl⟩ | ⟨-, rfl⟩ | ⟨hs, -, hcrc⟩ := perform_next h
  · exact raiseFault_eq_faulted_of_fault hs hf
  · rw [runInstr_eq_issue] at hi
    obtain ⟨hs, ⟨g, rfl⟩ | ⟨-, frame, n, -, -, rfl⟩⟩ := issue_next hi
    · exact raiseFault_eq_faulted_of_fault hs hf
    · simp [hs] at hf
  · exact absurd hop (hrecv bs)
  · simp [hs] at hf
  · simp at hf
  · obtain ⟨seed, -, rfl⟩ | ⟨b, c, -, -, rfl⟩ | ⟨c, -, -, rfl⟩ := hcrc <;> simp [hs] at hf

/-! ### The way out of a fault (R209) -/

theorem afterReset_cons_of_ne {op : HostOp} (h : op ≠ .reset) (ops : List HostOp) :
    afterReset (op :: ops) = afterReset ops := by
  cases op with
  | reset => exact absurd rfl h
  | _ => rfl

/-- The operations before the first RESET are passed over. -/
theorem afterReset_append : ∀ {ops : List HostOp}, .reset ∉ ops → ∀ rest, afterReset (ops ++ rest) = afterReset rest
  | [], _, _ => rfl
  | op :: ops, h, rest => by
    obtain ⟨hop, hops⟩ := not_or.mp (mt List.mem_cons.mpr h)
    rw [List.cons_append, afterReset_cons_of_ne (Ne.symm hop), afterReset_append hops]

theorem afterReset_eq_none {ops : List HostOp} (h : .reset ∉ ops) : afterReset ops = none := by
  have hnil := afterReset_append h []
  rwa [List.append_nil] at hnil

/-- Settles O50: the step looks for the first RESET pending. -/
theorem onlyResetLeavesAFault : Obligations.OnlyResetLeavesAFault := by
  refine fun s f hf => ⟨fun hno => ?_, fun rest ops hin hno => ?_⟩
  · simp only [step, takeStep, hf, afterReset_eq_none hno]
  · have hafter : afterReset s.inputs = some rest := by rw [hin, afterReset_append hno, afterReset]
    exact ⟨resetUnit (setInputs rest s), by simp only [step, takeStep, hf, hafter], ⟨rfl, rfl⟩, rfl, rfl⟩

/-! ### RECV under the host's contract (R212 line 4) -/

theorem le_length_of_memRead {buf : List Byte} {off n v : Nat} (h : memRead buf off n = some v) :
    off + n ≤ buf.length := by
  by_contra hlt
  rw [memRead_eq_none.mpr (by omega)] at h
  cases h

section
variable {k : Config} {s : State} {c : Command}

/-- Before its tenth byte an EngData exchange awaits ten: the extended count rests on a length field received (R185). -/
theorem rxExpected_of_awaits_engData (h : awaits k .engData s) (hlt : s.rxlen < 10) : s.rxExpected = 10 := by
  rw [awaits, if_pos rfl] at h
  obtain h | ⟨_, len, -, -, hl, -⟩ := h
  · exact h
  · have := le_length_of_memRead hl
    rw [received_length] at this
    omega

/-- EngData's tenth byte is never before the last one awaited. -/
theorem noTenthOfEngData_of_awaits {n : Nat} (hcmd : s.cmd = (k.catalog c).id) (haw : awaits k c s)
    (hlt : s.rxlen + n < s.rxExpected) : noTenthOfEngData k s n := by
  refine fun h10 hn => ⟨c, ?_, hcmd⟩
  rintro rfl
  have := rxExpected_of_awaits_engData haw h10
  omega

/-- Fewer bytes than awaited are stored. -/
theorem recv_of_not_last (hk : k.wf = true) (h : unitInvariant k s) (hf : s.fault = none) (hp : s.phase = .await)
    {bs : List Byte} (hlt : s.rxlen + bs.length < s.rxExpected) : recv k bs s = .next (storeRx bs s) := by
  obtain ⟨-, -, ⟨-, hcap, hopen⟩, -⟩ := h
  obtain ⟨c, -, hcmd, -, -, haw⟩ := hopen hp hf
  rw [recv_of_unfaulted hf]
  exact rxBytes_of_not_last hk bs ⟨hf, hp, hlt.le, hcap, noTenthOfEngData_of_awaits hcmd haw hlt⟩ hlt.ne

end

/-- An EngData response has a result where its length field counts the bytes behind an open status gate. -/
theorem exists_decode_eq_ok_of_engData {raw : List Byte} {len : Nat} (hl : memRead raw 6 4 = some len)
    (hlen : memRead8 raw 1 = some (mps.statusCode .ok) → raw.length = 10 + len) :
    ∃ r, decode mps (mps.catalog .engData) raw = .ok r := by
  have := le_length_of_memRead hl
  exact exists_decode_eq_ok mps_wf rfl (by omega) fun hok => decodeEngData_of_length hl (hlen hok)

/-- Unfaulted, or faulted by the length field of an EngData response: all that the contract leaves possible (R212). -/
def faultedAtMostByOverflow (s : State) : Prop :=
  s.fault = none ∨ (s.fault = some .rxOverflow ∧ s.cmd = (mps.catalog .engData).id ∧
    ∃ len, memRead (received s) 6 4 = some len ∧ 128 < len)

section
variable {s : State} {b : Byte}

/-- Completing an exchange whose response has a result raises no fault. -/
theorem complete_fault_of_decode {c : Command} (hf : s.fault = none) (hcmd : s.cmd = (mps.catalog c).id)
    (h : ∃ r, decode mps (mps.catalog c) (received s) = .ok r) : (complete mps s).fault = none := by
  obtain ⟨r, hr⟩ := h
  rw [complete_of_decode_ok mps_wf hcmd hr]
  exact hf

/-- EngData's tenth byte overflows, extends the count, or completes an exchange whose response has a result. -/
theorem recv_tenth_engData (hf : s.fault = none) (hp : s.phase = .await) (hcmd : s.cmd = (mps.catalog .engData).id)
    (hexp : s.rxExpected = 10) (hlen : s.rxlen = 9) : ∃ t, recv mps [b] s = .next t ∧ faultedAtMostByOverflow t := by
  have hten : (received (pushRx b s)).length = 10 := by rw [received_length, pushRx_rxlen, hlen]
  obtain ⟨status, hs⟩ := memRead8_of_le (A := received (pushRx b s)) (o := 1) (by omega)
  obtain ⟨len, hl⟩ := memRead_of_le (A := received (pushRx b s)) (o := 6) (n := 4) (by omega)
  obtain ⟨hover, hextend, hcomplete⟩ := engDataExtendsAtTheTenthByte s b status len hf hp hcmd hexp hlen hs hl
  by_cases hdone : status ≠ mps.statusCode .ok ∨ len = 0
  · refine ⟨_, hcomplete hdone, .inl (complete_fault_of_decode (s := pushRx b s) hf hcmd ?_)⟩
    refine exists_decode_eq_ok_of_engData hl fun hok => ?_
    have hzero : len = 0 := hdone.resolve_left (not_not.mpr (Option.some_inj.mp (hs.symm.trans hok)))
    rw [hten, hzero]
  · rw [not_or, not_not] at hdone
    obtain ⟨hok, hpos⟩ := hdone
    by_cases hlong : 128 < len
    · exact ⟨_, hover ⟨hok, hlong⟩, .inr ⟨rfl, hcmd, len, hl, hlong⟩⟩
    · exact ⟨_, hextend ⟨hok, by omega, by omega⟩, .inl hf⟩

/-- The last byte awaited completes the exchange with a result; EngData's tenth has the outcomes of its stage. -/
theorem recv_last (h : unitInvariant mps s) (hf : s.fault = none) (hp : s.phase = .await)
    (heq : s.rxlen + 1 = s.rxExpected) : ∃ t, recv mps [b] s = .next t ∧ faultedAtMostByOverflow t := by
  obtain ⟨⟨-, hwf, -⟩, -, ⟨-, hcap, hopen⟩, -⟩ := h
  obtain ⟨c, he, hcmd, -, -, haw⟩ := hopen hp hf
  have hlen : (received (pushRx b s)).length = s.rxExpected := by rw [received_length, pushRx_rxlen, heq]
  have hcompletes (hno : noTenthOfEngData mps s 1)
      (hdec : ∃ r, decode mps (mps.catalog c) (received (pushRx b s)) = .ok r) :
      ∃ t, recv mps [b] s = .next t ∧ faultedAtMostByOverflow t :=
    ⟨_, recv_singleton hf (rxByte_of_last hf hp (by omega) mps_wf hno heq),
      .inl (complete_fault_of_decode (s := pushRx b s) hf hcmd hdec)⟩
  by_cases hc : c = .engData
  · subst hc
    by_cases h10 : s.rxlen < 10
    · have hexp := rxExpected_of_awaits_engData haw h10
      exact recv_tenth_engData hf hp hcmd hexp (by omega)
    · have haw' := awaits_pushRx b hwf haw
      rw [awaits, if_pos rfl, pushRx_rxExpected] at haw'
      obtain hexp | ⟨_, len, -, -, hl, -, hexp⟩ := haw'
      · omega
      · exact hcompletes (fun h => absurd h h10) (exists_decode_eq_ok_of_engData hl fun _ => hlen.trans hexp)
  · rw [awaits, if_neg hc] at haw
    exact hcompletes (fun _ _ => ⟨c, hc, hcmd⟩) (exists_decode_eq_ok_of_fixed he hc (hlen.trans haw))

/-- At most the bytes awaited: all but the last awaited are stored. -/
theorem recv_of_awaited (h : unitInvariant mps s) (hf : s.fault = none) (hp : s.phase = .await) {bs : List Byte}
    (hne : bs ≠ []) (hle : s.rxlen + bs.length ≤ s.rxExpected) :
    ∃ t, recv mps bs s = .next t ∧ faultedAtMostByOverflow t := by
  obtain hlt | heq := hle.lt_or_eq
  · exact ⟨_, recv_of_not_last mps_wf h hf hp hlt, .inl hf⟩
  · obtain ⟨front, b, rfl⟩ := (List.eq_nil_or_concat' bs).resolve_left hne
    rw [List.length_append, List.length_singleton] at heq
    have hfront : recv mps front s = .next (storeRx front s) := recv_of_not_last mps_wf h hf hp (by omega)
    have hinv : unitInvariant mps (storeRx front s) := unitInvariant_perform mps_wf (op := .recv front) h hfront
    rw [splittingReceptionDoesNotMatter mps front [b] s _ hfront hf]
    exact recv_last hinv hf hp ((Nat.add_assoc ..).trans heq)

/-! ### The host's contract (R212) -/

/-- An operation the contract allows is never refused, and raises no fault but an EngData overflow. -/
theorem perform_of_hostAllowed {op : HostOp} (h : unitInvariant mps s) (hf : s.fault = none)
    (hop : hostAllowed mps s op) : ∃ t, perform mps op s = .next t ∧ faultedAtMostByOverflow t := by
  cases op with
  | issue id payload =>
    obtain ⟨hp, c, rfl, hlen⟩ := hop
    obtain ⟨i, -, -, hrun⟩ := ((issueChecksItsOperands.1 mps s _ payload mps_wf ⟨hp, hf⟩).2 c rfl).2 hlen
    obtain ⟨n, -, hissued⟩ := runInstr_of_quiescent mps_wf ⟨hp, hf⟩ i
    exact ⟨_, hrun.trans hissued, .inl ((issued_fault ..).trans hf)⟩
  | recv bytes =>
    obtain ⟨hp, hne, hle⟩ := hop
    exact recv_of_awaited h hf hp hne hle
  | ioError => exact ⟨_, ioErrorEndsTheExchange mps s hf, .inl hf⟩
  | reset => exact ⟨_, rfl, .inl rfl⟩
  | crcLoad seed => exact ⟨_, perform_crcLoad_idle mps seed hf hop, .inl hf⟩
  | crcByte b =>
    obtain ⟨hp, hc⟩ := hop
    obtain ⟨c, hc⟩ := Option.ne_none_iff_exists'.mp hc
    exact ⟨_, perform_crcByte_loaded mps b hf hp hc, .inl hf⟩
  | crcRead =>
    obtain ⟨hp, hc⟩ := hop
    obtain ⟨c, hc⟩ := Option.ne_none_iff_exists'.mp hc
    exact ⟨_, perform_crcRead_loaded mps hf hp hc, .inl hf⟩

end

/-- Settles O59: an allowed operation has a next state, and every next state meets the invariant. -/
theorem hostContractAvoidsFaults : Obligations.HostContractAvoidsFaults := by
  intro s op h hf hop
  obtain ⟨t, hperform, ht⟩ := perform_of_hostAllowed h hf hop
  exact ⟨t, hperform, unitInvariant_perform mps_wf h hperform, ht⟩

end Sys2Proof.Machine
end

section
/-! SUPPORT. Reset and the result between exchanges (spec/70_reset_and_hazards.md R230, R239): RESET gives the unit the
values of the reset state, and in IDLE only an operation that settles or opens an exchange writes the result. -/

namespace Sys2Proof.Machine

/-! ### Reset (R230) -/

/-- Settles O51: the field lemmas of `resetUnit`, and the fields of `State.reset` by evaluation. -/
theorem resetGivesTheStatedValues : Obligations.ResetGivesTheStatedValues :=
  ⟨fun _ s => ⟨resetUnit s, rfl, resetUnit_phase s, resetUnit_txlen s, resetUnit_rxlen s, resetUnit_rxExpected s,
    resetUnit_result s, resetUnit_fault s, resetUnit_crc s, resetUnit_outputs s⟩, rfl, rfl, rfl, rfl, rfl, rfl, rfl⟩

/-! ### The result in IDLE (R239) -/

/-- Bytes received in IDLE leave the result: the first one faults and ends the loop (R184). -/
theorem recv_result_of_idle {k : Config} {bytes : List Byte} {s t : State} (hp : s.phase = .idle)
    (h : recv k bytes s = .next t) : t.result = s.result := by
  obtain ⟨hf, hloop⟩ := guardFault_next h
  cases bytes with
  | nil =>
    cases hloop
    rfl
  | cons b bs =>
    rw [bytesOutsideAnExchangeFault k s b bs ⟨hp, hf⟩] at h
    cases h
    rfl

/-- Settles O56: a fault changes nothing else, RECV faults at its first byte, and the checksum operations write the
checksum register and the events. -/
theorem resultIsStableUntilTheNextIssue : Obligations.ResultIsStableUntilTheNextIssue := by
  intro k op s t hp h hissue hio hreset
  obtain ⟨f, -, -, rfl⟩ | ⟨id, payload, _, hop, -⟩ | ⟨bytes, -, rfl, -⟩ | ⟨-, hop, -⟩ | ⟨hop, -⟩ | ⟨-, -, hcrc⟩ :=
    perform_next h
  · exact raiseFault_result s f
  · exact absurd hop (hissue id payload)
  · exact recv_result_of_idle hp h
  · exact absurd hop hio
  · exact absurd hop hreset
  · obtain ⟨seed, -, rfl⟩ | ⟨b, c, -, -, rfl⟩ | ⟨c, -, -, rfl⟩ := hcrc
    · exact setCrc_result s seed
    · exact setCrc_result s (crcStep k c b)
    · exact emit_result s [.crcValue c]

end Sys2Proof.Machine
end

section
/-! SUPPORT. Request frames written out from the spec (spec/95_test_vectors.md Q1, Q4, Q17, Q12). -/

namespace Sys2Proof.Machine

/-- Settles O2: each frame is the header of its command, two checksum bytes the decoder does not look at, and the
payload of the instruction. -/
theorem writtenOutFramesDecode : Obligations.WrittenOutFramesDecode :=
  ⟨decodeFrame_requestHead mps_wf .answer 0xED 0x76 [], decodeFrame_requestHead mps_wf .engData 0x37 0x68 [],
    decodeFrame_requestHead mps_wf (.meas 1 3) 0x47 0x91 [], decodeFrame_requestHead mps_wf .shutdown 0x20 0x33 []⟩

end Sys2Proof.Machine
end
